-- ==== Sys2Proof/Word.lean ====
section
/-! DEFINITION. The word type and the field types of the instruction decoder (00_scope.md R9, R10, R11). -/

namespace Sys2Proof

/-- A Word: 32 bits, bit 31 most significant (10_state.md R21, 00_scope.md R10). -/
abbrev Word := BitVec 32

/-- A byte of the caller's buffer (20_memory.md R31). -/
abbrev Byte := BitVec 8

/-- A register index, 0 to 31 (10_state.md R14). The block holds no register behind it. -/
abbrev RegIndex := BitVec 5

/-- A shift amount, 0 to 31 (30_encoding.md R57). -/
abbrev Shamt := BitVec 5

/-- The 16-bit immediate of format I, a raw bit pattern (30_encoding.md R55). -/
abbrev Imm := BitVec 16

/-- The 26-bit address of format J, a raw bit pattern (30_encoding.md R56). -/
abbrev Addr := BitVec 26

end Sys2Proof
end

