-- ==== Sys2Proof/Config.lean ====
section
/-! DEFINITION. What an implementation fixes: the two parameters the spec leaves open (00_scope.md section 5;
92_eei_decisions.md D14, D17), the output ports of the block (10_state.md R28), and the free value of those
ports while the input is undriven (10_state.md R30; 93_implementation_defined.md ID12). -/

namespace Sys2Proof

/-- The two OPEN parameters of the spec. They are plain data, so that a run can be made with any setting.
- `offsetBits`: OFFSET_BITS; `none` is the default, unbounded natural numbers.
- `regNames`: REGNAME_EXT; `none` is the default `false`; `some t` is `true` with the twenty missing names, for
  the indices 2 to 7, 16 to 23, 26 to 31 in rising order. -/
structure Params where
  offsetBits : Option Nat
  regNames   : Option (Vector String 20)
  deriving DecidableEq, Repr

/-- The defaults of 00_scope.md section 5. -/
def Params.default : Params := { offsetBits := none, regNames := none }

/-- The output ports of the block with their widths (10_state.md R28). -/
structure Ports where
  raw    : BitVec 32
  ok     : BitVec 1
  err    : BitVec 3
  format : BitVec 2
  kind   : BitVec 3
  mnem   : BitVec 4
  opcode : BitVec 6
  rs     : BitVec 5
  rt     : BitVec 5
  rd     : BitVec 5
  shamt  : BitVec 5
  funct  : BitVec 6
  imm    : BitVec 16
  addr   : BitVec 26
  deriving DecidableEq, Repr, Inhabited

/-- What the output ports carry while `word` is undriven: unspecified, a FREE VALUE (R30, ID12; log 7).
The argument is the counter `State.undriven`. -/
opaque Config.undrivenOutputs : Nat → Ports

end Sys2Proof
end

