-- ==== Sys2Proof/Syntax.lean ====
section
/-! DEFINITION. The data types of the decoder: the twelve instructions, the formats, kinds, mnemonics, records,
per-format fields, error kinds and operand templates. Types only; every table over them is in Decode.lean or
under Machine/. -/

namespace Sys2Proof

/-- The twelve instructions of MM12 (00_scope.md R2), one constructor per row of spec/opcode_table.json, each
with every field its format has besides the selectors opcode and funct (30_encoding.md R54). The format R
instructions carry all of rs, rt, rd, shamt, whether or not their rendered line shows them (R64, R88 (c)). -/
inductive Instr where
  | add   (rs rt rd : RegIndex) (shamt : Shamt)
  | addu  (rs rt rd : RegIndex) (shamt : Shamt)
  | sub   (rs rt rd : RegIndex) (shamt : Shamt)
  | subu  (rs rt rd : RegIndex) (shamt : Shamt)
  | sll   (rs rt rd : RegIndex) (shamt : Shamt)
  | srl   (rs rt rd : RegIndex) (shamt : Shamt)
  | jr    (rs rt rd : RegIndex) (shamt : Shamt)
  | addi  (rs rt : RegIndex) (imm : Imm)
  | addiu (rs rt : RegIndex) (imm : Imm)
  | beq   (rs rt : RegIndex) (imm : Imm)
  | bne   (rs rt : RegIndex) (imm : Imm)
  | j     (addr : Addr)
  deriving DecidableEq, Repr

/-- Format (10_state.md R22). `unrecognized` never stands in a record that decode returns. -/
inductive Format where
  | r | i | j | unrecognized
  deriving DecidableEq, Repr

/-- OperationKind (10_state.md R23). `unknown` never stands in a record that decode returns. -/
inductive Kind where
  | add | sub | shift | jump | branch | unknown
  deriving DecidableEq, Repr

/-- The twelve mnemonics, in the order of 00_scope.md R2. Their text is `Mnemonic.text` (10_state.md R24). -/
inductive Mnemonic where
  | add | addu | sub | subu | sll | srl | jr | addi | addiu | beq | bne | j
  deriving DecidableEq, Repr

/-- DecodedInstruction (10_state.md R25): exactly the four members of the spec. A record built by hand may hold
any values (95_test_vectors.md V7); one made by decode meets `Record.wf`. -/
structure Record where
  raw      : Word
  format   : Format
  kind     : Kind
  mnemonic : String
  deriving DecidableEq, Repr

/-- The fields a record has, by format (30_encoding.md R54): a sum type with one constructor per format. -/
inductive Fields where
  | r (rs rt rd : RegIndex) (shamt : Shamt) (funct : BitVec 6)
  | i (rs rt : RegIndex) (imm : Imm)
  | j (addr : Addr)
  deriving DecidableEq, Repr

/-- The eight slices of a word, named, for the validity mask of 30_encoding.md R54. -/
inductive FieldName where
  | opcode | rs | rt | rd | shamt | funct | imm | addr
  deriving DecidableEq, Repr

/-- Why `read_word` raised InvalidArgument (60_exceptions.md R114). -/
inductive ArgCause where
  | absentBuffer
  | misaligned (offset : Nat)
  deriving DecidableEq, Repr

/-- The six error kinds with what each records (60_exceptions.md R112 to R118). -/
inductive Error where
  /-- raised by `read_word`: fewer than four bytes remain (R113) -/
  | outOfBounds (offset len : Nat)
  /-- raised by `read_word`: absent buffer or misaligned offset (R114) -/
  | invalidArgument (cause : ArgCause)
  /-- raised by `decode`: the opcode maps to no format (R115) -/
  | unrecognizedFormat (word : Word)
  /-- raised by `decode`: format R with a funct outside the table (R116) -/
  | unsupportedFunct (word : Word)
  /-- raised by `render`: the index has no name (R117) -/
  | unsupportedRegister (index : RegIndex)
  /-- raised by `render`: the pair has no template (R118) -/
  | unhandledTemplate (format : Format) (kind : Kind)
  deriving DecidableEq, Repr

/-- The error kinds without payload: the kind is normative, the payload is not (92_eei_decisions.md D22). -/
inductive ErrorKind where
  | outOfBounds | invalidArgument | unrecognizedFormat | unsupportedFunct | unsupportedRegister | unhandledTemplate
  deriving DecidableEq, Repr

/-- The first error of a run with the zero-based index at which it arose (45_disassembler.md R108, R110). The byte
offset is absent only when the records came from no buffer (90_conflicts.md C7). -/
structure ErrorReport where
  error      : Error
  index      : Nat
  byteOffset : Option Nat
  deriving DecidableEq, Repr

/-- The three register roles; each reads its own field (30_encoding.md R57). -/
inductive RegRole where
  | rs | rt | rd
  deriving DecidableEq, Repr

/-- One operand of a template (45_disassembler.md R99). -/
inductive OperandForm where
  | reg (role : RegRole)
  | shamtDecimal
  | immHex
  | addrHex
  deriving DecidableEq, Repr

/-- One row of the flat opcode map (30_encoding.md R61). -/
structure OpcodeRow where
  mnemonic  : Mnemonic
  format    : Format
  kind      : Kind
  matchBits : Word
  mask      : Word
  deriving DecidableEq, Repr

end Sys2Proof
end

