-- ==== Sys2Proof/Decode.lean ====
section
/-! DEFINITION. The decoder: field extraction, the opcode classifier, the operation tables, the decode function,
total on every word and on any bytes; after it the encoder, from the same layouts (30_encoding.md,
40_decode_algorithm.md). -/

namespace Sys2Proof

/-! ## Field extraction (30_encoding.md R50 to R53): pure wiring, no extension, no scaling -/

/-- `w[31:26]` -/
def opcodeOf (w : Word) : BitVec 6 := w.extractLsb' 26 6
/-- `w[25:21]` -/
def rsOf (w : Word) : RegIndex := w.extractLsb' 21 5
/-- `w[20:16]` -/
def rtOf (w : Word) : RegIndex := w.extractLsb' 16 5
/-- `w[15:11]` -/
def rdOf (w : Word) : RegIndex := w.extractLsb' 11 5
/-- `w[10:6]` -/
def shamtOf (w : Word) : Shamt := w.extractLsb' 6 5
/-- `w[5:0]` -/
def functOf (w : Word) : BitVec 6 := w.extractLsb' 0 6
/-- `w[15:0]`, raw (R55) -/
def immOf (w : Word) : Imm := w.extractLsb' 0 16
/-- `w[25:0]`, raw (R56) -/
def addrOf (w : Word) : Addr := w.extractLsb' 0 26

/-! ## The constant tables (10_state.md R17; ID18: each literal stands once) -/

/-- The spelling of each mnemonic (10_state.md R24). -/
def Mnemonic.text : Mnemonic → String
  | .add => "add" | .addu => "addu" | .sub => "sub" | .subu => "subu"
  | .sll => "sll" | .srl => "srl" | .jr => "jr"
  | .addi => "addi" | .addiu => "addiu" | .beq => "beq" | .bne => "bne" | .j => "j"

/-- Opcode to Format (30_encoding.md R49); every opcode not listed is Unrecognized. -/
def opcodeFormats : List (BitVec 6 × Format) :=
  [(0, .r), (2, .j), (4, .i), (5, .i), (8, .i), (9, .i)]

/-- Format R: funct to kind and mnemonic (30_encoding.md R58). -/
def functTable : List (BitVec 6 × Kind × Mnemonic) :=
  [(0, .shift, .sll), (2, .shift, .srl), (8, .jump, .jr),
   (32, .add, .add), (33, .add, .addu), (34, .sub, .sub), (35, .sub, .subu)]

/-- Format I: opcode to kind and mnemonic (30_encoding.md R59). -/
def formatITable : List (BitVec 6 × Kind × Mnemonic) :=
  [(4, .branch, .beq), (5, .branch, .bne), (8, .add, .addi), (9, .add, .addiu)]

/-! ## The two-level decode (40_decode_algorithm.md R70 to R74) -/

/-- Step 1, the classifier: a total function of the opcode alone (R49, R70). -/
def classify (w : Word) : Format :=
  (opcodeFormats.lookup (opcodeOf w)).getD .unrecognized

/-- Steps 1 and 3: format, then kind and mnemonic (R70, R72). The last arm of format I is never taken, since the
classifier lets only the four opcodes of `formatITable` through (R59). -/
def resolve (w : Word) : Except Error (Format × Kind × Mnemonic) :=
  match classify w with
  | .unrecognized => .error (.unrecognizedFormat w)
  | .r =>
    match functTable.lookup (functOf w) with
    | some (k, m) => .ok (.r, k, m)
    | none => .error (.unsupportedFunct w)
  | .i =>
    match formatITable.lookup (opcodeOf w) with
    | some (k, m) => .ok (.i, k, m)
    | none => .error (.unrecognizedFormat w)
  | .j => .ok (.j, .jump, .j)

/-- `decode : Word → DecodedInstruction or Error` (R69, R73, R74). -/
def decode (w : Word) : Except Error Record :=
  match resolve w with
  | .error e => .error e
  | .ok (f, k, m) => .ok { raw := w, format := f, kind := k, mnemonic := m.text }

/-- Step 2 (R71): the instruction a mnemonic stands for, with the fields of its format sliced from the word. -/
def Instr.ofWord (m : Mnemonic) (w : Word) : Instr :=
  match m with
  | .add   => .add   (rsOf w) (rtOf w) (rdOf w) (shamtOf w)
  | .addu  => .addu  (rsOf w) (rtOf w) (rdOf w) (shamtOf w)
  | .sub   => .sub   (rsOf w) (rtOf w) (rdOf w) (shamtOf w)
  | .subu  => .subu  (rsOf w) (rtOf w) (rdOf w) (shamtOf w)
  | .sll   => .sll   (rsOf w) (rtOf w) (rdOf w) (shamtOf w)
  | .srl   => .srl   (rsOf w) (rtOf w) (rdOf w) (shamtOf w)
  | .jr    => .jr    (rsOf w) (rtOf w) (rdOf w) (shamtOf w)
  | .addi  => .addi  (rsOf w) (rtOf w) (immOf w)
  | .addiu => .addiu (rsOf w) (rtOf w) (immOf w)
  | .beq   => .beq   (rsOf w) (rtOf w) (immOf w)
  | .bne   => .bne   (rsOf w) (rtOf w) (immOf w)
  | .j     => .j     (addrOf w)

/-- The decoder as the machine's front end: the same two levels, delivering the instruction with its fields. -/
def decodeInstr (w : Word) : Except Error Instr :=
  match resolve w with
  | .error e => .error e
  | .ok (_, _, m) => .ok (Instr.ofWord m w)

/-! ## Bytes (20_memory.md R36): big-endian, fixed -/

/-- The Word of four consecutive bytes, the first most significant (R36). -/
def joinBytes (b0 b1 b2 b3 : Byte) : Word := b0 ++ b1 ++ b2 ++ b3

/-- The four bytes of a word in buffer order, the inverse of `joinBytes`. -/
def wordBytes (w : Word) : List Byte :=
  [w.extractLsb' 24 8, w.extractLsb' 16 8, w.extractLsb' 8 8, w.extractLsb' 0 8]

/-- The decoder on any bytes: the first four are one instruction (R48, R67), the rest is handed back. Fewer than
four bytes are OutOfBounds (R34). -/
def decodeBytes : List Byte → Except Error (Instr × List Byte)
  | b0 :: b1 :: b2 :: b3 :: rest =>
    match decodeInstr (joinBytes b0 b1 b2 b3) with
    | .ok i => .ok (i, rest)
    | .error e => .error e
  | bs => .error (.outOfBounds 0 bs.length)

/-- The bytes of a table row's word, as the hardware stores them: the bits above `nbits` are zero. -/
def tableBytes (nbits w : Nat) : List Byte := wordBytes (BitVec.ofNat 32 (w % 2 ^ nbits))

/-- The instruction the decoder reads from an instruction whose bits are `w`, numbered as spec/opcode_table.json
numbers them (bit 31 the most significant, R10). -/
def decodeTableWord (nbits w : Nat) : Option Instr :=
  match decodeBytes (tableBytes nbits w) with
  | .ok (i, _) => some i
  | .error _ => none

/-! ## The flat opcode map (30_encoding.md R61): a second, independent description of the same decoder -/

/-- The twelve rows of R61, match and mask as the spec prints them. -/
def opcodeMap : List OpcodeRow :=
  [⟨.sll,   .r, .shift,  0x00000000, 0xFC00003F⟩,
   ⟨.srl,   .r, .shift,  0x00000002, 0xFC00003F⟩,
   ⟨.jr,    .r, .jump,   0x00000008, 0xFC00003F⟩,
   ⟨.add,   .r, .add,    0x00000020, 0xFC00003F⟩,
   ⟨.addu,  .r, .add,    0x00000021, 0xFC00003F⟩,
   ⟨.sub,   .r, .sub,    0x00000022, 0xFC00003F⟩,
   ⟨.subu,  .r, .sub,    0x00000023, 0xFC00003F⟩] ++
  [⟨.j,     .j, .jump,   0x08000000, 0xFC000000⟩,
   ⟨.beq,   .i, .branch, 0x10000000, 0xFC000000⟩,
   ⟨.bne,   .i, .branch, 0x14000000, 0xFC000000⟩,
   ⟨.addi,  .i, .add,    0x20000000, 0xFC000000⟩,
   ⟨.addiu, .i, .add,    0x24000000, 0xFC000000⟩]

/-- `w & mask == match` (R61). -/
def OpcodeRow.selects (row : OpcodeRow) (w : Word) : Bool := w &&& row.mask == row.matchBits

/-- The row a word selects, if any. -/
def selectRow (w : Word) : Option OpcodeRow := opcodeMap.find? (·.selects w)

/-! ## The encoder, from the layouts of R50, R51, R52 -/

/-- A format R word (R50): opcode 0, rs, rt, rd, shamt, funct, packed with no gap. -/
def encodeR (rs rt rd : RegIndex) (shamt : Shamt) (funct : BitVec 6) : Word :=
  0#6 ++ rs ++ rt ++ rd ++ shamt ++ funct

/-- A format I word (R51). -/
def encodeI (opcode : BitVec 6) (rs rt : RegIndex) (imm : Imm) : Word := opcode ++ rs ++ rt ++ imm

/-- A format J word (R52). -/
def encodeJ (addr : Addr) : Word := 2#6 ++ addr

/-- The word of an instruction. -/
def encode : Instr → Word
  | .add   rs rt rd shamt => encodeR rs rt rd shamt 32
  | .addu  rs rt rd shamt => encodeR rs rt rd shamt 33
  | .sub   rs rt rd shamt => encodeR rs rt rd shamt 34
  | .subu  rs rt rd shamt => encodeR rs rt rd shamt 35
  | .sll   rs rt rd shamt => encodeR rs rt rd shamt 0
  | .srl   rs rt rd shamt => encodeR rs rt rd shamt 2
  | .jr    rs rt rd shamt => encodeR rs rt rd shamt 8
  | .addi  rs rt imm => encodeI 8 rs rt imm
  | .addiu rs rt imm => encodeI 9 rs rt imm
  | .beq   rs rt imm => encodeI 4 rs rt imm
  | .bne   rs rt imm => encodeI 5 rs rt imm
  | .j     addr => encodeJ addr

/-- The mnemonic of an instruction: its row of the opcode table. -/
def Instr.mnemonic : Instr → Mnemonic
  | .add .. => .add | .addu .. => .addu | .sub .. => .sub | .subu .. => .subu
  | .sll .. => .sll | .srl .. => .srl | .jr .. => .jr
  | .addi .. => .addi | .addiu .. => .addiu | .beq .. => .beq | .bne .. => .bne | .j .. => .j

/-- The format of an instruction (30_encoding.md R61). -/
def Instr.format : Instr → Format
  | .add .. | .addu .. | .sub .. | .subu .. | .sll .. | .srl .. | .jr .. => .r
  | .addi .. | .addiu .. | .beq .. | .bne .. => .i
  | .j .. => .j

/-- The operation kind of an instruction (30_encoding.md R61). -/
def Instr.kind : Instr → Kind
  | .add .. | .addu .. | .addi .. | .addiu .. => .add
  | .sub .. | .subu .. => .sub
  | .sll .. | .srl .. => .shift
  | .jr .. | .j .. => .jump
  | .beq .. | .bne .. => .branch

/-- The record of an instruction (10_state.md R25). -/
def Instr.record (i : Instr) : Record :=
  { raw := encode i, format := i.format, kind := i.kind, mnemonic := i.mnemonic.text }

end Sys2Proof
end

