-- ==== Sys2Proof/WellFormed.lean ====
section
/-! DEFINITION. Well-formedness. The field types of `Instr` are exactly the widths of 00_scope.md R9, and no field
value is illegal (30_encoding.md R64; 60_exceptions.md R119), so every instruction is well-formed. What can be
ill-formed is a record built by hand: `Record.wf` is the invariant of the records that decode returns
(10_state.md R26). -/

namespace Sys2Proof

/-- Every instruction is well-formed: any index, any shift amount, any immediate, any address (R119). -/
def Instr.wf : Instr → Bool
  | .add .. | .addu .. | .sub .. | .subu .. | .sll .. | .srl .. | .jr .. => true
  | .addi .. | .addiu .. | .beq .. | .bne .. => true
  | .j .. => true

/-- The members of a record agree with its raw word, by the flat opcode map (10_state.md R26; 30_encoding.md R61). -/
def Record.wf (r : Record) : Bool :=
  opcodeMap.any fun row =>
    row.selects r.raw && r.format == row.format && r.kind == row.kind && r.mnemonic == row.mnemonic.text

end Sys2Proof
end

