-- ==== Sys2Proof/Machine/State.lean ====
section
/-! DEFINITION. The machine's state as plain data. The block itself is stateless (10_state.md R13): it has no
register, no program counter, no flag and no mode (R14 to R20). State holds what the machine does have: the
caller's inputs (20_memory.md R31; 70_reset_and_hazards.md R140), the block's input port (10_state.md R28), the
progress and result of one run (R139), and the two open parameters. -/

namespace Sys2Proof.Machine

/-- The caller's byte buffer as cells `(offset, byte)`. Canonical form (`Memory.wf`): the offsets are exactly
0, 1, ..., len - 1 in rising order. An unlisted offset does not exist (20_memory.md R31), so it reads as nothing. -/
abbrev Memory := List Host.Cell

/-- The state of one run. -/
structure State where
  /-- the open parameters OFFSET_BITS and REGNAME_EXT; no step changes them -/
  params   : Params
  /-- the caller's byte buffer, present or absent (R31, R37); the block only reads it -/
  buffer   : Option Memory
  /-- the starting byte offset `s` (R38) -/
  offset   : Nat
  /-- the number `n` of words of the run (R38, R139) -/
  count    : Nat
  /-- the section label (R105); `none`: the caller asks for records only -/
  label    : Option String
  /-- the block's input port (R28); `none`: undriven (R30) -/
  word     : Option Word
  /-- the records delivered so far, in input order (R25, R80) -/
  records  : List Record
  /-- the lines rendered so far, in input order (R107) -/
  lines    : List String
  /-- the first error of the run (R121, R122) -/
  error    : Option ErrorReport
  /-- the MODEL's own counter: which free value the outputs show while `word` is undriven (log 7) -/
  undriven : Nat
  deriving DecidableEq, Repr

/-- Where a run stands (70_reset_and_hazards.md R139). Computed from State by `State.phase`. -/
inductive Phase where
  /-- a word is still to be read and decoded -/
  | decoding
  /-- all words are decoded; a record is still to be rendered -/
  | rendering
  /-- the run has ended, with a result or with its first error -/
  | ended
  deriving DecidableEq, Repr

/-- What the caller gets back at the end of a run (70_reset_and_hazards.md R140). -/
inductive RunResult where
  | records (rs : List Record)
  | text (t : String)
  | failed (e : ErrorReport)
  deriving DecidableEq, Repr

/-- Why a step stops the machine. The six error kinds of the spec are NOT here: each is a next state that holds
the report (60_exceptions.md R122). -/
inductive Fault where
  /-- Raised by `step` when the run has ended (70_reset_and_hazards.md R139): the block has no input, so there is
  no step to take (R138). Safe: the machine stops where the block merely waits for its caller (log 6). -/
  | runEnded
  deriving DecidableEq, Repr

/-- Why an instruction is given no meaning. -/
inductive Refusal where
  /-- Raised by `exec` for an instruction not modelled yet; no arm uses it. Safe: nothing can be proved of it. -/
  | notModelled (mnemonic : String)
  deriving DecidableEq, Repr

/-- The machine before any call. The spec gives no reset (70_reset_and_hazards.md R133) and the parameters' defaults
(00_scope.md section 5); nothing has been supplied and nothing produced (DESIGN CHOICE, log 2). -/
def State.reset : State :=
  { params := Params.default, buffer := none, offset := 0, count := 0, label := none, word := none,
    records := [], lines := [], error := none, undriven := 0 }

end Sys2Proof.Machine
end

