-- ==== Sys2Proof/Machine/Operands.lean ====
section
/-! DEFINITION. Every operand form the spec gives: the fields of a record by format (30_encoding.md R54), the
register names (45_disassembler.md R97, R98), hexadecimal and decimal operands (R103, R104). -/

namespace Sys2Proof.Machine

/-! ## The fields of a record -/

/-- Which fields a format has (30_encoding.md R54, the validity mask). -/
def hasField : Format → FieldName → Bool
  | .r, .opcode | .r, .rs | .r, .rt | .r, .rd | .r, .shamt | .r, .funct => true
  | .i, .opcode | .i, .rs | .i, .rt | .i, .imm => true
  | .j, .opcode | .j, .addr => true
  | _, _ => false

/-- The value of one slice of a word as an unsigned number (30_encoding.md R53); no field is extended or scaled. -/
def fieldValue (w : Word) : FieldName → Nat
  | .opcode => (opcodeOf w).toNat
  | .rs => (rsOf w).toNat
  | .rt => (rtOf w).toNat
  | .rd => (rdOf w).toNat
  | .shamt => (shamtOf w).toNat
  | .funct => (functOf w).toNat
  | .imm => (immOf w).toNat
  | .addr => (addrOf w).toNat

/-- The bits a field occupies (30_encoding.md R50, R51, R52). -/
def fieldMask : FieldName → Word
  | .opcode => 0xFC000000
  | .rs => 0x03E00000
  | .rt => 0x001F0000
  | .rd => 0x0000F800
  | .shamt => 0x000007C0
  | .funct => 0x0000003F
  | .imm => 0x0000FFFF
  | .addr => 0x03FFFFFF

/-- The lowest bit of a field (30_encoding.md R53). -/
def fieldLow : FieldName → Nat
  | .opcode => 26
  | .rs => 21
  | .rt => 16
  | .rd => 11
  | .shamt => 6
  | .funct | .imm | .addr => 0

/-- The fields of a record, sliced from its raw word by its format (10_state.md R25; 30_encoding.md R54). A
hand-made record of format Unrecognized has none. -/
def recordFields (r : Record) : Option Fields :=
  match r.format with
  | .r => some (.r (rsOf r.raw) (rtOf r.raw) (rdOf r.raw) (shamtOf r.raw) (functOf r.raw))
  | .i => some (.i (rsOf r.raw) (rtOf r.raw) (immOf r.raw))
  | .j => some (.j (addrOf r.raw))
  | .unrecognized => none

/-- The index a register role names: each role reads its own field (30_encoding.md R57). -/
def roleIndex (w : Word) : RegRole → RegIndex
  | .rs => rsOf w
  | .rt => rtOf w
  | .rd => rdOf w

/-! ## Register names -/

/-- The RegisterName table, complete as the spec gives it (45_disassembler.md R97). -/
def regNameTable : List (RegIndex × String) :=
  [(0, "zero"), (1, "at"), (8, "t0"), (9, "t1"), (10, "t2"), (11, "t3"),
   (12, "t4"), (13, "t5"), (14, "t6"), (15, "t7"), (24, "t8"), (25, "t9")]

/-- The twenty indices without a name, in rising order (45_disassembler.md R97; 90_conflicts.md C4). -/
def unnamedIndices : List RegIndex :=
  [2, 3, 4, 5, 6, 7, 16, 17, 18, 19] ++ [20, 21, 22, 23, 26, 27, 28, 29, 30, 31]

/-- The name of an index: the table of R97, then the caller's twenty names where REGNAME_EXT is set (D14). -/
def regName (p : Params) (i : RegIndex) : Option String :=
  match regNameTable.lookup i with
  | some n => some n
  | none =>
    match p.regNames with
    | some ext => (unnamedIndices.zip ext.toList).lookup i
    | none => none

/-- A register operand: `$` and the name, or UnsupportedRegister with the index (45_disassembler.md R98). -/
def renderReg (p : Params) (i : RegIndex) : Except Error String :=
  match regName p i with
  | some n => .ok ("$" ++ n)
  | none => .error (.unsupportedRegister i)

/-! ## Numbers -/

/-- A digit, lower case (45_disassembler.md R103; D12). -/
def digitChar (d : Nat) : Char := "0123456789abcdef".toList.getD d '0'

/-- The digits of `n` in a base, most significant first, no leading zeros, zero as one digit. `fuel` bounds the
number of digits; eight suffice for every operand (at most seven hexadecimal digits). -/
def digits (base : Nat) : Nat → Nat → List Char
  | 0, _ => []
  | fuel + 1, n =>
    if n < base then [digitChar n] else digits base fuel (n / base) ++ [digitChar (n % base)]

/-- A hexadecimal operand: no prefix, no leading zeros, unsigned (45_disassembler.md R103). -/
def renderHex (n : Nat) : String := String.ofList (digits 16 8 n)

/-- A decimal operand (45_disassembler.md R104). -/
def renderDec (n : Nat) : String := String.ofList (digits 10 8 n)

/-- One operand of a template, read from the record's raw word (45_disassembler.md R98, R103, R104, R109). -/
def renderOperand (p : Params) (w : Word) : OperandForm → Except Error String
  | .reg role => renderReg p (roleIndex w role)
  | .shamtDecimal => .ok (renderDec (shamtOf w).toNat)
  | .immHex => .ok (renderHex (immOf w).toNat)
  | .addrHex => .ok (renderHex (addrOf w).toNat)

end Sys2Proof.Machine
end

