-- ==== Sys2Proof/Machine/Flags.lean ====
section
/-! DEFINITION. The block has no flags (10_state.md R16). Its only status is the pair of outputs `ok` and `err` of
the current decode, which hold nothing once the input changes; their values and the error codes are here
(10_state.md R28, R29; 60_exceptions.md R112). -/

namespace Sys2Proof.Machine

/-- The kind of an error, without its payload. -/
def errorKind : Error → ErrorKind
  | .outOfBounds .. => .outOfBounds
  | .invalidArgument .. => .invalidArgument
  | .unrecognizedFormat .. => .unrecognizedFormat
  | .unsupportedFunct .. => .unsupportedFunct
  | .unsupportedRegister .. => .unsupportedRegister
  | .unhandledTemplate .. => .unhandledTemplate

/-- The codes of the six kinds (60_exceptions.md R112). Code 0 is "no error", 7 is unused. -/
def errorCode : ErrorKind → BitVec 3
  | .outOfBounds => 1
  | .invalidArgument => 2
  | .unrecognizedFormat => 3
  | .unsupportedFunct => 4
  | .unsupportedRegister => 5
  | .unhandledTemplate => 6

/-- The `ok` output: 1 when decode returns a record (10_state.md R28). -/
def okOutput (w : Word) : BitVec 1 :=
  match decode w with
  | .ok _ => 1
  | .error _ => 0

/-- The `err` output: 0, or the code of the error decode raises (10_state.md R28, R29). -/
def errOutput (w : Word) : BitVec 3 :=
  match decode w with
  | .ok _ => 0
  | .error e => errorCode (errorKind e)

end Sys2Proof.Machine
end

