-- ==== Sys2Proof/Machine/Ports.lean ====
section
/-! DEFINITION. The port view of the block (10_state.md R28, R29): every output is a function of the current
value of the input `word` and of nothing else. -/

namespace Sys2Proof.Machine

/-- 0 R, 1 I, 2 J, 3 Unrecognized (R28; D4). -/
def formatCode : Format → BitVec 2
  | .r => 0
  | .i => 1
  | .j => 2
  | .unrecognized => 3

/-- 0 Add, 1 Sub, 2 Shift, 3 Jump, 4 Branch, 5 Unknown (R28; D5). -/
def kindCode : Kind → BitVec 3
  | .add => 0
  | .sub => 1
  | .shift => 2
  | .jump => 3
  | .branch => 4
  | .unknown => 5

/-- 0 to 11 in the order of R28 (D6). -/
def mnemonicCode : Mnemonic → BitVec 4
  | .add => 0 | .addu => 1 | .sub => 2 | .subu => 3 | .sll => 4 | .srl => 5 | .jr => 6
  | .addi => 7 | .addiu => 8 | .beq => 9 | .bne => 10 | .j => 11

/-- The `kind` output: Unknown when decode fails (R29). -/
def kindOutput (w : Word) : BitVec 3 :=
  match resolve w with
  | .ok (_, k, _) => kindCode k
  | .error _ => kindCode .unknown

/-- The `mnem` output: 15, none, when decode fails (R29). -/
def mnemOutput (w : Word) : BitVec 4 :=
  match resolve w with
  | .ok (_, _, m) => mnemonicCode m
  | .error _ => 15

/-- The outputs for a driven input. `format` is the classifier's answer, which on failure is Unrecognized for a bad
opcode and R for a bad funct (R29). The slices follow the word whatever `ok` is (R28; D8). -/
def portsOf (w : Word) : Ports :=
  { raw := w, ok := okOutput w, err := errOutput w, format := formatCode (classify w),
    kind := kindOutput w, mnem := mnemOutput w,
    opcode := opcodeOf w, rs := rsOf w, rt := rtOf w, rd := rdOf w, shamt := shamtOf w,
    funct := functOf w, imm := immOf w, addr := addrOf w }

/-- The outputs of the block: combinational (R28), unspecified while `word` is undriven (R30, ID12; log 7). -/
def State.outputs (s : State) : Ports :=
  match s.word with
  | some w => portsOf w
  | none => Config.undrivenOutputs s.undriven

/-- The caller drives the decoder's input port (00_scope.md R5: a decoder fed with words directly). -/
def State.drive (w : Word) (s : State) : State := { s with word := some w }

/-- The input port is left undriven: the outputs show a fresh free value (R30; log 7, log 8). -/
def State.undrive (s : State) : State := { s with word := none, undriven := s.undriven + 1 }

end Sys2Proof.Machine
end

