-- ==== Sys2Proof/Machine/Ops.lean ====
section
/-! DEFINITION. The named operations: the byte buffer and WordReader (20_memory.md), the phase of a run, raising an
error (60_exceptions.md R122) and starting again after it (R124), delivering a record (40_decode_algorithm.md R73),
fetching the next instruction. -/

namespace Sys2Proof.Machine

/-! ## The byte buffer (20_memory.md R31, R32) -/

/-- The canonical form: the offsets are exactly 0, 1, ..., len - 1, rising. -/
def Memory.wf (m : Memory) : Bool := m.map Prod.fst == List.range m.length

/-- A buffer of the given bytes. -/
def Memory.ofBytes (bs : List Byte) : Memory := (List.range bs.length).zip bs

/-- `BufRead` (R32): the byte at an offset, nothing where the buffer has no such offset. -/
def Memory.read (m : Memory) (a : Nat) : Option Byte := m.lookup a

/-- The CALLER's change of one byte of its buffer between calls (R46); the block never writes (R32). An offset the
buffer does not have is left alone. -/
def Memory.write (m : Memory) (a : Nat) (b : Byte) : Memory := m.map fun c => if c.1 = a then (a, b) else c

/-! ## WordReader -/

/-- `offset + 4` does not fit OFFSET_BITS bits: such an offset is rejected, never wrapped (D17, ID15; log 10). -/
def offsetOverflows (p : Params) (o : Nat) : Bool :=
  match p.offsetBits with
  | none => false
  | some k => decide (2 ^ k ≤ o + 4)

/-- `read_word` (20_memory.md R33 to R39): absent buffer, then misaligned offset, then bounds, then the big-endian
Word. The last arm is reached only on a buffer that is not in canonical form. -/
def readWord (p : Params) (buf : Option Memory) (o : Nat) : Except Error Word :=
  match buf with
  | none => .error (.invalidArgument .absentBuffer)
  | some m =>
    if o % 4 ≠ 0 then .error (.invalidArgument (.misaligned o))
    else if m.length < o + 4 ∨ offsetOverflows p o = true then .error (.outOfBounds o m.length)
    else
      match m.read o, m.read (o + 1), m.read (o + 2), m.read (o + 3) with
      | some b0, some b1, some b2, some b3 => .ok (joinBytes b0 b1 b2 b3)
      | _, _, _, _ => .error (.outOfBounds o m.length)

/-! ## The run -/

/-- Where the run stands (70_reset_and_hazards.md R139). An error ends it (R80, R124). All words are decoded before
any record is rendered (60_exceptions.md R121). Rendering takes place only where the caller gave a label. -/
def State.phase (s : State) : Phase :=
  if s.error.isSome then .ended
  else if s.records.length < s.count then .decoding
  else if s.label.isSome ∧ s.lines.length < s.records.length then .rendering
  else .ended

/-- The byte offset of word number `i` (20_memory.md R38). -/
def State.wordOffset (s : State) (i : Nat) : Nat := s.offset + 4 * i

/-- RAISING AN ERROR (60_exceptions.md R122): the error, with its index and byte offset, replaces the result of the
run. Nothing is saved, no mode or mask changes, control goes nowhere; no text is returned, not even the lines before
the failure (45_disassembler.md R108). The run is over. -/
def raise (e : Error) (index : Nat) (byteOffset : Option Nat) (s : State) : State :=
  { s with error := some ⟨e, index, byteOffset⟩, lines := [] }

/-- There is no return from an error (60_exceptions.md R124): the caller's next call starts a run as if the failing
one had never been. A run over a buffer, with a label (`disassemble`, R110) or without one (the sequence decode, R80).
The input port is not touched. -/
def State.start (s : State) (buf : Option Memory) (offset count : Nat) (label : Option String) : State :=
  { s with buffer := buf, offset := offset, count := count, label := label,
           records := [], lines := [], error := none }

/-- The caller's call of `render_all` on records of its own (45_disassembler.md R105): no buffer, nothing to decode. -/
def State.startRender (s : State) (rs : List Record) (label : String) : State :=
  { s with buffer := none, offset := 0, count := rs.length, label := some label,
           records := rs, lines := [], error := none }

/-- DELIVERING A RECORD (40_decode_algorithm.md R73): the block's input carries the record's word and the record joins
those of the run. Nothing else changes: no register, no flag, no pc, no memory (10_state.md R14 to R19). -/
def deliver (r : Record) (s : State) : State :=
  { s with word := some r.raw, records := s.records ++ [r] }

/-- The record of a format, kind and mnemonic with the raw word an instruction's fields make up (R25; log 11). -/
def recordOf (raw : Word) (f : Format) (k : Kind) (m : Mnemonic) : Record :=
  { raw := raw, format := f, kind := k, mnemonic := m.text }

/-- Read and decode the next word of the run: its instruction, or the state in which the error has been raised. A
failing read drives no word (log 8); a failing decode leaves the word on the input, so that the outputs show it (R29). -/
def fetch (s : State) : Except State Instr :=
  let i := s.records.length
  match readWord s.params s.buffer (s.wordOffset i) with
  | .error e => .error (raise e i (some (s.wordOffset i)) s.undrive)
  | .ok w =>
    match decodeInstr w with
    | .error e => .error (raise e i (some (s.wordOffset i)) (s.drive w))
    | .ok instr => .ok instr

/-- The sequence decode (40_decode_algorithm.md R80): words `i` to `i + n - 1` from starting offset `s`, the first
failure in input order with its index. -/
def decodeFrom (p : Params) (buf : Option Memory) (s : Nat) : Nat → Nat → Except ErrorReport (List Record)
  | _, 0 => .ok []
  | i, n + 1 =>
    match readWord p buf (s + 4 * i) with
    | .error e => .error ⟨e, i, some (s + 4 * i)⟩
    | .ok w =>
      match decode w with
      | .error e => .error ⟨e, i, some (s + 4 * i)⟩
      | .ok r =>
        match decodeFrom p buf s (i + 1) n with
        | .error e => .error e
        | .ok rs => .ok (r :: rs)

/-- `n` words from offset `s` (R80). -/
def decodeAll (p : Params) (buf : Option Memory) (s n : Nat) : Except ErrorReport (List Record) :=
  decodeFrom p buf s 0 n

end Sys2Proof.Machine
end

