-- ==== Sys2Proof/Machine/Disassembler.lean ====
section
/-! DEFINITION. The Disassembler (45_disassembler.md): templates, `render`, `render_all`, the whole path
`disassemble`, and the machine's rendering step. -/

namespace Sys2Proof.Machine

/-- The template table, complete (45_disassembler.md R99); the operand order is the spec's own (R102). -/
def templateTable : List ((Format × Kind) × List OperandForm) :=
  [((.r, .add),    [.reg .rs, .reg .rt, .reg .rd]),
   ((.r, .sub),    [.reg .rs, .reg .rt, .reg .rd]),
   ((.r, .shift),  [.reg .rs, .reg .rt, .shamtDecimal]),
   ((.r, .jump),   [.reg .rs]),
   ((.i, .add),    [.reg .rs, .reg .rt, .immHex]),
   ((.i, .branch), [.reg .rt, .reg .rs, .immHex]),
   ((.j, .jump),   [.addrHex])]

/-- The template of a format and kind, if the table has one (R99). -/
def template (f : Format) (k : Kind) : Option (List OperandForm) := templateTable.lookup (f, k)

/-- The operands of a template from left to right, stopping at the first error (R109). -/
def renderOperands (p : Params) (w : Word) : List OperandForm → Except Error (List String)
  | [] => .ok []
  | o :: os =>
    match renderOperand p w o with
    | .error e => .error e
    | .ok t =>
      match renderOperands p w os with
      | .error e => .error e
      | .ok ts => .ok (t :: ts)

/-- Operands separated by a comma and one space (R100). -/
def joinOperands : List String → String
  | [] => ""
  | [t] => t
  | t :: ts => t ++ ", " ++ joinOperands ts

/-- `render` (R96, R109): the template first, then the operands; mnemonic, one space, operands. It trusts the record's
members and slices its raw word (D21). -/
def render (p : Params) (r : Record) : Except Error String :=
  match template r.format r.kind with
  | none => .error (.unhandledTemplate r.format r.kind)
  | some t =>
    match renderOperands p r.raw t with
    | .error e => .error e
    | .ok ops => .ok (r.mnemonic ++ " " ++ joinOperands ops)

/-- The header line, without its newline (R105). The label is neither escaped nor checked. -/
def headerLine (label : String) : String := "section \"" ++ label ++ "\":"

/-- Each line ended by exactly one newline, U+000A (R106). -/
def joinLines : List String → String
  | [] => ""
  | l :: ls => l ++ "\n" ++ joinLines ls

/-- The text of a header and its instruction lines (R105, R106). -/
def assemble (label : String) (lines : List String) : String := joinLines (headerLine label :: lines)

/-- The lines of the records number `i` and on, or the first failure with its index (R107, R108). -/
def renderFrom (p : Params) : Nat → List Record → Except (Error × Nat) (List String)
  | _, [] => .ok []
  | i, r :: rs =>
    match render p r with
    | .error e => .error (e, i)
    | .ok l =>
      match renderFrom p (i + 1) rs with
      | .error e => .error e
      | .ok ls => .ok (l :: ls)

/-- `render_all` (R105 to R108): header and one line per record in input order, or the first error with its index. -/
def renderAll (p : Params) (rs : List Record) (label : String) : Except (Error × Nat) String :=
  match renderFrom p 0 rs with
  | .error e => .error e
  | .ok ls => .ok (assemble label ls)

/-- The whole path (R110): every word is read and decoded, then all records are rendered; the first error of the
stage that failed, with its index and byte offset (60_exceptions.md R121). -/
def disassemble (p : Params) (buf : Option Memory) (s n : Nat) (label : String) : Except ErrorReport String :=
  match decodeAll p buf s n with
  | .error e => .error e
  | .ok rs =>
    match renderAll p rs label with
    | .error (e, i) => .error ⟨e, i, some (s + 4 * i)⟩
    | .ok t => .ok t

/-- The byte offset reported with a render error: known only where the words came from a buffer
(90_conflicts.md C7). -/
def State.renderOffset (s : State) (i : Nat) : Option Nat :=
  match s.buffer with
  | some _ => some (s.wordOffset i)
  | none => none

/-- THE RENDERING STEP: the next record of the run becomes one line, or its error is raised (R107, R108). The first
arm is never taken while the phase is rendering. -/
def renderNext (s : State) : State :=
  match s.records[s.lines.length]? with
  | none => s
  | some r =>
    match render s.params r with
    | .ok l => { s with lines := s.lines ++ [l] }
    | .error e => raise e s.lines.length (s.renderOffset s.lines.length) s

/-- What the caller gets back, once the run has ended (70_reset_and_hazards.md R139, R140): the first error, or the
records, or (with a label) the text. -/
def State.result (s : State) : Option RunResult :=
  match s.phase with
  | .decoding | .rendering => none
  | .ended =>
    match s.error, s.label with
    | some e, _ => some (.failed e)
    | none, none => some (.records s.records)
    | none, some label => some (.text (assemble label s.lines))

end Sys2Proof.Machine
end

