-- ==== Sys2Proof/Machine/FormatI.lean ====
section
/-! DEFINITION. The meanings of the four format I instructions (42_i_format.md R89 to R93): the record the decoder
delivers, the immediate raw (30_encoding.md R55). Nothing is added, compared or branched to (R93). -/

namespace Sys2Proof.Machine

/-- `addi` (R89): I, Add, "addi". -/
def execAddi (rs rt : RegIndex) (imm : Imm) (s : State) : Host.Outcome State Fault Refusal :=
  .next (deliver (recordOf (encode (.addi rs rt imm)) .i .add .addi) s)

/-- `addiu` (R90): I, Add, "addiu". -/
def execAddiu (rs rt : RegIndex) (imm : Imm) (s : State) : Host.Outcome State Fault Refusal :=
  .next (deliver (recordOf (encode (.addiu rs rt imm)) .i .add .addiu) s)

/-- `beq` (R91): I, Branch, "beq". -/
def execBeq (rs rt : RegIndex) (imm : Imm) (s : State) : Host.Outcome State Fault Refusal :=
  .next (deliver (recordOf (encode (.beq rs rt imm)) .i .branch .beq) s)

/-- `bne` (R92): I, Branch, "bne". -/
def execBne (rs rt : RegIndex) (imm : Imm) (s : State) : Host.Outcome State Fault Refusal :=
  .next (deliver (recordOf (encode (.bne rs rt imm)) .i .branch .bne) s)

end Sys2Proof.Machine
end

