-- ==== Sys2Proof/Machine/FormatJ.lean ====
section
/-! DEFINITION. The meaning of the one format J instruction (43_j_format.md R94): the record the decoder delivers, the
address raw (30_encoding.md R56). No pc is set and no link is written. -/

namespace Sys2Proof.Machine

/-- `j` (R94): J, Jump, "j". -/
def execJ (addr : Addr) (s : State) : Host.Outcome State Fault Refusal :=
  .next (deliver (recordOf (encode (.j addr)) .j .jump .j) s)

end Sys2Proof.Machine
end

