-- ==== Sys2Proof/Machine/FormatR.lean ====
section
/-! DEFINITION. The meanings of the seven format R instructions (41_r_format.md R81 to R88): the record the decoder
delivers. No flag is written and no register is read or written (R88 (d), (e)). -/

namespace Sys2Proof.Machine

/-- `add` (R81): R, Add, "add". -/
def execAdd (rs rt rd : RegIndex) (shamt : Shamt) (s : State) : Host.Outcome State Fault Refusal :=
  .next (deliver (recordOf (encode (.add rs rt rd shamt)) .r .add .add) s)

/-- `addu` (R82): R, Add, "addu". -/
def execAddu (rs rt rd : RegIndex) (shamt : Shamt) (s : State) : Host.Outcome State Fault Refusal :=
  .next (deliver (recordOf (encode (.addu rs rt rd shamt)) .r .add .addu) s)

/-- `sub` (R83): R, Sub, "sub". -/
def execSub (rs rt rd : RegIndex) (shamt : Shamt) (s : State) : Host.Outcome State Fault Refusal :=
  .next (deliver (recordOf (encode (.sub rs rt rd shamt)) .r .sub .sub) s)

/-- `subu` (R84): R, Sub, "subu". -/
def execSubu (rs rt rd : RegIndex) (shamt : Shamt) (s : State) : Host.Outcome State Fault Refusal :=
  .next (deliver (recordOf (encode (.subu rs rt rd shamt)) .r .sub .subu) s)

/-- `sll` (R85): R, Shift, "sll". The all-zero word is one (30_encoding.md R65). -/
def execSll (rs rt rd : RegIndex) (shamt : Shamt) (s : State) : Host.Outcome State Fault Refusal :=
  .next (deliver (recordOf (encode (.sll rs rt rd shamt)) .r .shift .sll) s)

/-- `srl` (R86): R, Shift, "srl". -/
def execSrl (rs rt rd : RegIndex) (shamt : Shamt) (s : State) : Host.Outcome State Fault Refusal :=
  .next (deliver (recordOf (encode (.srl rs rt rd shamt)) .r .shift .srl) s)

/-- `jr` (R87): R, Jump, "jr". -/
def execJr (rs rt rd : RegIndex) (shamt : Shamt) (s : State) : Host.Outcome State Fault Refusal :=
  .next (deliver (recordOf (encode (.jr rs rt rd shamt)) .r .jump .jr) s)

end Sys2Proof.Machine
end

