-- ==== Sys2Proof/Machine/Step.lean ====
section
/-! DEFINITION. One step of the one agent (70_reset_and_hazards.md R138): read and decode one word, or render one
record; and the placing of one instruction word where the next step reads it. -/

namespace Sys2Proof.Machine

/-- One step. An error is a next state that holds the report (60_exceptions.md R122); a run that has ended has no
step left (R139; log 6). -/
def step (s : State) : Host.Outcome State Fault Refusal :=
  match s.phase with
  | .decoding =>
    match fetch s with
    | .ok i => exec i s
    | .error s' => .next s'
  | .rendering => .next (renderNext s)
  | .ended => .fault .runEnded

/-- The caller's call that makes the very next step decode the given word: a present buffer of its four bytes,
offset 0, count 1, nothing produced yet (log 3). The offset is unbounded, so that the read at 0 is not rejected. -/
def State.withFetchWord (s : State) (nbits w : Nat) : State :=
  { s.start (some (Memory.ofBytes (tableBytes nbits w))) 0 1 s.label with
    params := { s.params with offsetBits := none } }

end Sys2Proof.Machine
end

