-- ==== Sys2Proof/Safety.lean ====
section
/-! DEFINITION. What claims about runs use: what a run over a buffer must give (the pure functions of the spec), when a
run completes with it, and the invariants of State. -/

namespace Sys2Proof.Machine

/-- What the spec's functions give for the inputs a state holds: the sequence decode without a label
(40_decode_algorithm.md R80), the whole path with one (45_disassembler.md R110). -/
def State.expected (s : State) : RunResult :=
  match s.label with
  | none =>
    match decodeAll s.params s.buffer s.offset s.count with
    | .ok rs => .records rs
    | .error e => .failed e
  | some label =>
    match disassemble s.params s.buffer s.offset s.count label with
    | .ok t => .text t
    | .error e => .failed e

/-- Within `bound` steps the run ends with the result `res` (70_reset_and_hazards.md R137, R139). -/
def State.EndsWith (s : State) (bound : Nat) (res : RunResult) : Prop :=
  ∃ k s', k ≤ bound ∧ Host.Core.run Sys2Proof.core k s = .next s' ∧ s'.phase = .ended ∧ s'.result = some res

/-- The buffer, if there is one, is in canonical form (20_memory.md R31). -/
def State.Canonical (s : State) : Prop := ∀ m, s.buffer = some m → m.wf = true

/-- The bookkeeping of a run, whatever made its records: no more records than words asked for, no more lines than
records, no line before all records are there, none without a label, none beside an error. -/
structure State.Bounded (s : State) : Prop where
  records_le  : s.records.length ≤ s.count
  lines_le    : s.lines.length ≤ s.records.length
  lines_late  : s.lines ≠ [] → s.records.length = s.count
  lines_label : s.label = none → s.lines = []
  error_lines : s.error ≠ none → s.lines = []

/-- The progress of a run over a buffer agrees with the spec's functions: the records are those of the words read so
far, the lines are those of the records rendered so far, an error is the error of the whole run. -/
structure State.Faithful (s : State) : Prop where
  bounded : s.Bounded
  decoded : decodeAll s.params s.buffer s.offset s.records.length = .ok s.records
  rendered : renderFrom s.params 0 (s.records.take s.lines.length) = .ok s.lines
  failed  : ∀ e, s.error = some e → s.expected = .failed e

end Sys2Proof.Machine
end

