-- ==== Sys2Proof/Certificates/Slice0/Obligations.lean ====
section
/-! DEFINITION. The statements for the provers. Each docstring cites the rule of spec/ it formalises. "Default
parameters" means `Params.default`, the spec's own defaults for OFFSET_BITS and REGNAME_EXT; a statement that does not
name them holds for every setting. -/

open Sys2Proof Sys2Proof.Machine

/-! ## Encoding -/

/-- R49: Format is a function of the opcode alone: 0 R; 2 J; 4, 5, 8, 9 I; each other value Unrecognized. -/
def Obligations.FormatIsFunctionOfOpcode : Prop :=
  ∀ w : Word,
    (w.toNat / 2 ^ 26 = 0 → classify w = .r) ∧
    (w.toNat / 2 ^ 26 = 2 → classify w = .j) ∧
    (w.toNat / 2 ^ 26 ∈ [4, 5, 8, 9] → classify w = .i) ∧
    (w.toNat / 2 ^ 26 ∉ [0, 2, 4, 5, 8, 9] → classify w = .unrecognized) ∧
    ∀ w' : Word, w.toNat / 2 ^ 26 = w'.toNat / 2 ^ 26 → classify w = classify w'

/-- R53: each slice is the shift and mask of the unsigned word that the rule prints, and the immediate and the address
are the fields of the other formats side by side. -/
def Obligations.SlicesAreShiftAndMask : Prop :=
  ∀ w : Word,
    fieldValue w .opcode = (w.toNat >>> 26) &&& 0x3F ∧
    fieldValue w .rs = (w.toNat >>> 21) &&& 0x1F ∧
    fieldValue w .rt = (w.toNat >>> 16) &&& 0x1F ∧
    fieldValue w .rd = (w.toNat >>> 11) &&& 0x1F ∧
    fieldValue w .shamt = (w.toNat >>> 6) &&& 0x1F ∧
    fieldValue w .funct = w.toNat &&& 0x3F ∧
    fieldValue w .imm = w.toNat &&& 0xFFFF ∧
    fieldValue w .addr = w.toNat &&& 0x3FFFFFF ∧
    immOf w = rdOf w ++ shamtOf w ++ functOf w ∧
    addrOf w = rsOf w ++ rtOf w ++ immOf w

/-- R58, R59, R60: the operation tables. Format R is resolved by funct alone, format I by opcode alone, format J always
to Jump, j. -/
def Obligations.OperationTablesResolveKindAndMnemonic : Prop :=
  (∀ w : Word, classify w = .r →
    (functOf w = 0 → resolve w = .ok (.r, .shift, .sll)) ∧
    (functOf w = 2 → resolve w = .ok (.r, .shift, .srl)) ∧
    (functOf w = 8 → resolve w = .ok (.r, .jump, .jr)) ∧
    (functOf w = 32 → resolve w = .ok (.r, .add, .add)) ∧
    (functOf w = 33 → resolve w = .ok (.r, .add, .addu)) ∧
    (functOf w = 34 → resolve w = .ok (.r, .sub, .sub)) ∧
    (functOf w = 35 → resolve w = .ok (.r, .sub, .subu)) ∧
    (functOf w ∉ [0, 2, 8, 32, 33, 34, 35] → resolve w = .error (.unsupportedFunct w))) ∧
  (∀ w : Word, classify w = .i →
    (opcodeOf w = 4 ∧ resolve w = .ok (.i, .branch, .beq)) ∨
    (opcodeOf w = 5 ∧ resolve w = .ok (.i, .branch, .bne)) ∨
    (opcodeOf w = 8 ∧ resolve w = .ok (.i, .add, .addi)) ∨
    (opcodeOf w = 9 ∧ resolve w = .ok (.i, .add, .addiu))) ∧
  (∀ w : Word, classify w = .j → resolve w = .ok (.j, .jump, .j))

/-- R61: the opcode map is the twelve rows the rule prints, no word matches two rows, and a word that matches no row
fails to decode. -/
def Obligations.OpcodeMapRowsAreDisjoint : Prop :=
  opcodeMap.map (fun row => (row.mnemonic.text, row.format, row.kind, row.matchBits, row.mask)) =
    [("sll", .r, .shift, 0x00000000#32, 0xFC00003F#32), ("srl", .r, .shift, 0x00000002#32, 0xFC00003F#32),
     ("jr", .r, .jump, 0x00000008#32, 0xFC00003F#32), ("add", .r, .add, 0x00000020#32, 0xFC00003F#32),
     ("addu", .r, .add, 0x00000021#32, 0xFC00003F#32), ("sub", .r, .sub, 0x00000022#32, 0xFC00003F#32),
     ("subu", .r, .sub, 0x00000023#32, 0xFC00003F#32), ("j", .j, .jump, 0x08000000#32, 0xFC000000#32),
     ("beq", .i, .branch, 0x10000000#32, 0xFC000000#32), ("bne", .i, .branch, 0x14000000#32, 0xFC000000#32),
     ("addi", .i, .add, 0x20000000#32, 0xFC000000#32), ("addiu", .i, .add, 0x24000000#32, 0xFC000000#32)] ∧
  (∀ a ∈ opcodeMap, ∀ b ∈ opcodeMap, ∀ w : Word,
    w &&& a.mask = a.matchBits → w &&& b.mask = b.matchBits → a = b) ∧
  (∀ w : Word, (∀ row ∈ opcodeMap, w &&& row.mask ≠ row.matchBits) → ∃ e, decode w = .error e)

/-- R74: the whole decode function as the rule's pseudocode prints it. -/
def Obligations.DecodeFollowsPseudocode : Prop :=
  ∀ w : Word, decode w =
    (let op := w.extractLsb' 26 6
     let f := w.extractLsb' 0 6
     if op = 0 then
       if f = 32 then .ok ⟨w, .r, .add, "add"⟩
       else if f = 33 then .ok ⟨w, .r, .add, "addu"⟩
       else if f = 34 then .ok ⟨w, .r, .sub, "sub"⟩
       else if f = 35 then .ok ⟨w, .r, .sub, "subu"⟩
       else if f = 0 then .ok ⟨w, .r, .shift, "sll"⟩
       else if f = 2 then .ok ⟨w, .r, .shift, "srl"⟩
       else if f = 8 then .ok ⟨w, .r, .jump, "jr"⟩
       else .error (.unsupportedFunct w)
     else if op = 4 ∨ op = 5 ∨ op = 8 ∨ op = 9 then
       if op = 8 then .ok ⟨w, .i, .add, "addi"⟩
       else if op = 9 then .ok ⟨w, .i, .add, "addiu"⟩
       else if op = 4 then .ok ⟨w, .i, .branch, "beq"⟩
       else .ok ⟨w, .i, .branch, "bne"⟩
     else if op = 2 then .ok ⟨w, .j, .jump, "j"⟩
     else .error (.unrecognizedFormat w))

/-- R75: which error a word reports, exactly, that no word satisfies both conditions, and that a word with a bad opcode
and a bad funct reports UnrecognizedFormat. -/
def Obligations.EachBadWordReportsOneError : Prop :=
  (∀ w : Word,
    ((∃ w', decode w = .error (.unrecognizedFormat w')) ↔ w.extractLsb' 26 6 ∉ [0#6, 2, 4, 5, 8, 9]) ∧
    ((∃ w', decode w = .error (.unsupportedFunct w')) ↔
      w.extractLsb' 26 6 = 0 ∧ w.extractLsb' 0 6 ∉ [0#6, 2, 8, 32, 33, 34, 35]) ∧
    (∀ e, decode w = .error e → e = .unrecognizedFormat w ∨ e = .unsupportedFunct w) ∧
    ¬ (w.extractLsb' 26 6 ∉ [0#6, 2, 4, 5, 8, 9] ∧
       (w.extractLsb' 26 6 = 0 ∧ w.extractLsb' 0 6 ∉ [0#6, 2, 8, 32, 33, 34, 35]))) ∧
  decode 0xFFFFFFFF = .error (.unrecognizedFormat 0xFFFFFFFF)

/-- R76: the two-level form and the flat twelve-row table give the same result on every word, and a word that matches
no row reports UnsupportedFunct when its opcode is 0 and UnrecognizedFormat otherwise. -/
def Obligations.TwoLevelDecodeEqualsFlatTable : Prop :=
  ∀ w : Word, decode w =
    match selectRow w with
    | some row => .ok ⟨w, row.format, row.kind, row.mnemonic.text⟩
    | none => if opcodeOf w = 0 then .error (.unsupportedFunct w) else .error (.unrecognizedFormat w)

/-- R78: every word that a row of the opcode map matches decodes to exactly that row, whatever its free bits. -/
def Obligations.EveryMatchingWordDecodesToItsRow : Prop :=
  ∀ row ∈ opcodeMap, ∀ w : Word, w &&& row.mask = row.matchBits →
    decode w = .ok ⟨w, row.format, row.kind, row.mnemonic.text⟩

/-- R54: which of the eight fields each format has, as the rule's validity mask and as the fields of a record. R79: field
isolation, with the rule's exact statement; and the two selectors can change the instruction or make the word
invalid. -/
def Obligations.ChangingOneFieldChangesOnlyThatField : Prop :=
  ([Format.r, .i, .j].map fun f =>
      [FieldName.opcode, .rs, .rt, .rd, .shamt, .funct, .imm, .addr].map (hasField f)) =
    [[true, true, true, true, true, true, false, false],
     [true, true, true, false, false, false, true, false],
     [true, false, false, false, false, false, false, true]] ∧
  (∀ (w : Word) (k : Kind) (m : String),
    recordFields ⟨w, .r, k, m⟩ = some (.r (w.extractLsb' 21 5) (w.extractLsb' 16 5) (w.extractLsb' 11 5)
      (w.extractLsb' 6 5) (w.extractLsb' 0 6)) ∧
    recordFields ⟨w, .i, k, m⟩ = some (.i (w.extractLsb' 21 5) (w.extractLsb' 16 5) (w.extractLsb' 0 16)) ∧
    recordFields ⟨w, .j, k, m⟩ = some (.j (w.extractLsb' 0 26))) ∧
  (∀ (w w' : Word) (r r' : Record) (F : FieldName),
    decode w = .ok r → decode w' = .ok r' → r.format = r'.format →
    hasField r.format F = true → F ≠ .opcode → F ≠ .funct →
    w &&& ~~~ fieldMask F = w' &&& ~~~ fieldMask F →
    r.kind = r'.kind ∧ r.mnemonic = r'.mnemonic ∧
    (∀ G, hasField r.format G = true → G ≠ F → fieldValue w G = fieldValue w' G) ∧
    fieldValue w' F = (w' &&& fieldMask F).toNat / 2 ^ fieldLow F) ∧
  decode 0x01095020 = .ok ⟨0x01095020, .r, .add, "add"⟩ ∧
  decode 0x01095021 = .ok ⟨0x01095021, .r, .add, "addu"⟩ ∧
  decode 0x01095024 = .error (.unsupportedFunct 0x01095024) ∧
  decode 0x21095020 = .ok ⟨0x21095020, .i, .add, "addi"⟩ ∧
  decode 0x05095020 = .error (.unrecognizedFormat 0x05095020)

/-- Decode and encode agree, one way: every instruction, with every operand value, is read back from its word and from
its bytes, whatever follows them, and its record is the one decode makes. -/
def Obligations.DecodeOfEncodeIsTheInstruction : Prop :=
  ∀ i : Instr, i.wf = true →
    decodeInstr (encode i) = .ok i ∧ decode (encode i) = .ok i.record ∧
    ∀ rest, decodeBytes (wordBytes (encode i) ++ rest) = .ok (i, rest)

/-- Decode and encode agree, the other way: no bit of a valid word is dropped. -/
def Obligations.EncodeOfDecodeIsTheWord : Prop :=
  ∀ (w : Word) (i : Instr), decodeInstr w = .ok i → encode i = w ∧ decode w = .ok i.record

/-- R66: of the 2^32 words, 342884352 decode to a record, 3892314112 fail with UnrecognizedFormat and 59768832 with
UnsupportedFunct, which adds up to all of them. -/
def Obligations.CountsOfValidAndInvalidWords : Prop :=
  Nat.card { w : Word // ∃ r, decode w = .ok r } = 342884352 ∧
  Nat.card { w : Word // decode w = .error (.unrecognizedFormat w) } = 3892314112 ∧
  Nat.card { w : Word // decode w = .error (.unsupportedFunct w) } = 59768832 ∧
  7 * 2 ^ 20 + 4 * 2 ^ 26 + 2 ^ 26 = 342884352 ∧ 58 * 2 ^ 26 = 3892314112 ∧ 57 * 2 ^ 20 = 59768832 ∧
  342884352 + 3892314112 + 59768832 = 2 ^ 32

/-- R26: the invariants (a) to (d) of the records that decode returns; such a record is well-formed. -/
def Obligations.RecordInvariants : Prop :=
  (∀ (w : Word) (r : Record), decode w = .ok r →
    r.raw = w ∧ r.wf = true ∧ r.format ≠ .unrecognized ∧ r.kind ≠ .unknown) ∧
  (∀ (w w' : Word) (r r' : Record), decode w = .ok r → decode w' = .ok r' →
    (opcodeOf r.raw = opcodeOf r'.raw → r.format = r'.format) ∧
    (r.format = r'.format → opcodeOf r.raw = opcodeOf r'.raw → functOf r.raw = functOf r'.raw →
      r.kind = r'.kind ∧ r.mnemonic = r'.mnemonic) ∧
    (r.mnemonic = r'.mnemonic → r.kind = r'.kind ∧ r.format = r'.format))

/-- Words of every format written out from the spec's encodings decode to their instructions (95_test_vectors.md V1,
V2, S1, S2). -/
def Obligations.SampleWordsDecode : Prop :=
  decodeInstr 0x00221820 = .ok (.add 1 2 3 0) ∧
  decodeInstr 0x012A5D60 = .ok (.add 9 10 11 21) ∧
  decodeInstr 0x016C6822 = .ok (.sub 11 12 13 0) ∧
  decodeInstr 0x00084FC2 = .ok (.srl 0 8 9 31) ∧
  decodeInstr 0x00000000 = .ok (.sll 0 0 0 0) ∧
  decodeInstr 0x03E00008 = .ok (.jr 31 0 0 0) ∧
  decodeInstr 0x2008FFFF = .ok (.addi 0 8 0xFFFF) ∧
  decodeInstr 0x1540FFFC = .ok (.bne 10 0 0xFFFC) ∧
  decodeInstr 0x08000064 = .ok (.j 0x64)

/-! ## The twelve instructions: what decode makes of their words, and how they are rendered -/

/-- R81 to R84: `add`, `addu`, `sub`, `subu`. Every word of the row decodes to the row's record with its fields; the
line shows rs, rt, rd; the first of them without a name is the error. The rules' examples. -/
def Obligations.AddSubWordsDecodeAndRender : Prop :=
  (∀ row ∈ ([(0x20, .add, "add"), (0x21, .add, "addu"), (0x22, .sub, "sub"), (0x23, .sub, "subu")] :
      List (Word × Kind × String)),
    ∀ w : Word, w &&& 0xFC00003F = row.1 →
      decode w = .ok ⟨w, .r, row.2.1, row.2.2⟩ ∧
      recordFields ⟨w, .r, row.2.1, row.2.2⟩ = some (.r (w.extractLsb' 21 5) (w.extractLsb' 16 5)
        (w.extractLsb' 11 5) (w.extractLsb' 6 5) (row.1.extractLsb' 0 6)) ∧
      ∀ p : Params, render p ⟨w, .r, row.2.1, row.2.2⟩ =
        match regName p (w.extractLsb' 21 5), regName p (w.extractLsb' 16 5), regName p (w.extractLsb' 11 5) with
        | none, _, _ => .error (.unsupportedRegister (w.extractLsb' 21 5))
        | some _, none, _ => .error (.unsupportedRegister (w.extractLsb' 16 5))
        | some _, some _, none => .error (.unsupportedRegister (w.extractLsb' 11 5))
        | some a, some b, some c =>
          .ok (row.2.2 ++ " " ++ "$" ++ a ++ ", " ++ "$" ++ b ++ ", " ++ "$" ++ c)) ∧
  (∀ ex ∈ ([(0x01095020, .add, "add", "add $t0, $t1, $t2"), (0x01095021, .add, "addu", "addu $t0, $t1, $t2"),
      (0x016C6822, .sub, "sub", "sub $t3, $t4, $t5"), (0x03190823, .sub, "subu", "subu $t8, $t9, $at")] :
      List (Word × Kind × String × String)),
    decode ex.1 = .ok ⟨ex.1, .r, ex.2.1, ex.2.2.1⟩ ∧
    render Params.default ⟨ex.1, .r, ex.2.1, ex.2.2.1⟩ = .ok ex.2.2.2)

/-- R85, R86: `sll`, `srl`. The line shows rs, rt and the shift amount in decimal; rd is not looked up. The rules'
examples and the all-zero word. -/
def Obligations.ShiftWordsDecodeAndRender : Prop :=
  (∀ row ∈ ([(0, "sll"), (2, "srl")] : List (Word × String)),
    ∀ w : Word, w &&& 0xFC00003F = row.1 →
      decode w = .ok ⟨w, .r, .shift, row.2⟩ ∧
      recordFields ⟨w, .r, .shift, row.2⟩ = some (.r (w.extractLsb' 21 5) (w.extractLsb' 16 5)
        (w.extractLsb' 11 5) (w.extractLsb' 6 5) (row.1.extractLsb' 0 6)) ∧
      ∀ p : Params, render p ⟨w, .r, .shift, row.2⟩ =
        match regName p (w.extractLsb' 21 5), regName p (w.extractLsb' 16 5) with
        | none, _ => .error (.unsupportedRegister (w.extractLsb' 21 5))
        | some _, none => .error (.unsupportedRegister (w.extractLsb' 16 5))
        | some a, some b =>
          .ok (row.2 ++ " " ++ "$" ++ a ++ ", " ++ "$" ++ b ++ ", " ++
            String.ofList (Nat.toDigits 10 (w.extractLsb' 6 5).toNat))) ∧
  (∀ ex ∈ ([(0x00084900, "sll", "sll $zero, $t0, 4"), (0x00000000, "sll", "sll $zero, $zero, 0"),
      (0x00084FC2, "srl", "srl $zero, $t0, 31")] : List (Word × String × String)),
    decode ex.1 = .ok ⟨ex.1, .r, .shift, ex.2.1⟩ ∧ render Params.default ⟨ex.1, .r, .shift, ex.2.1⟩ = .ok ex.2.2)

/-- R87: `jr`. The line shows rs only; rt, rd and shamt are not checked and not looked up. The rule's two examples. -/
def Obligations.JumpRegisterWordsDecodeAndRender : Prop :=
  (∀ w : Word, w &&& 0xFC00003F = 8 →
      decode w = .ok ⟨w, .r, .jump, "jr"⟩ ∧
      recordFields ⟨w, .r, .jump, "jr"⟩ = some (.r (w.extractLsb' 21 5) (w.extractLsb' 16 5)
        (w.extractLsb' 11 5) (w.extractLsb' 6 5) 8) ∧
      ∀ p : Params, render p ⟨w, .r, .jump, "jr"⟩ =
        match regName p (w.extractLsb' 21 5) with
        | none => .error (.unsupportedRegister (w.extractLsb' 21 5))
        | some a => .ok ("jr" ++ " " ++ "$" ++ a)) ∧
  decode 0x00200008 = .ok ⟨0x00200008, .r, .jump, "jr"⟩ ∧
  render Params.default ⟨0x00200008, .r, .jump, "jr"⟩ = .ok "jr $at" ∧
  decode 0x03E00008 = .ok ⟨0x03E00008, .r, .jump, "jr"⟩ ∧
  render Params.default ⟨0x03E00008, .r, .jump, "jr"⟩ = .error (.unsupportedRegister 31)

/-- R89, R90: `addi`, `addiu`. The line shows rs, rt and the raw immediate in hexadecimal. The rules' examples, and the
immediate 0xFFFF printed as ffff. -/
def Obligations.AddImmediateWordsDecodeAndRender : Prop :=
  (∀ row ∈ ([(0x20000000, "addi"), (0x24000000, "addiu")] : List (Word × String)),
    ∀ w : Word, w &&& 0xFC000000 = row.1 →
      decode w = .ok ⟨w, .i, .add, row.2⟩ ∧
      recordFields ⟨w, .i, .add, row.2⟩ =
        some (.i (w.extractLsb' 21 5) (w.extractLsb' 16 5) (w.extractLsb' 0 16)) ∧
      ∀ p : Params, render p ⟨w, .i, .add, row.2⟩ =
        match regName p (w.extractLsb' 21 5), regName p (w.extractLsb' 16 5) with
        | none, _ => .error (.unsupportedRegister (w.extractLsb' 21 5))
        | some _, none => .error (.unsupportedRegister (w.extractLsb' 16 5))
        | some a, some b =>
          .ok (row.2 ++ " " ++ "$" ++ a ++ ", " ++ "$" ++ b ++ ", " ++
            String.ofList (Nat.toDigits 16 (w.extractLsb' 0 16).toNat))) ∧
  (∀ ex ∈ ([(0x21097FFF, "addi", "addi $t0, $t1, 7fff"), (0x2008FFFF, "addi", "addi $zero, $t0, ffff"),
      (0x25098000, "addiu", "addiu $t0, $t1, 8000")] : List (Word × String × String)),
    decode ex.1 = .ok ⟨ex.1, .i, .add, ex.2.1⟩ ∧ render Params.default ⟨ex.1, .i, .add, ex.2.1⟩ = .ok ex.2.2)

/-- R91, R92: `beq`, `bne`. The line shows rt FIRST, then rs, then the raw immediate in hexadecimal. The rules'
examples. -/
def Obligations.BranchWordsDecodeAndRender : Prop :=
  (∀ row ∈ ([(0x10000000, "beq"), (0x14000000, "bne")] : List (Word × String)),
    ∀ w : Word, w &&& 0xFC000000 = row.1 →
      decode w = .ok ⟨w, .i, .branch, row.2⟩ ∧
      recordFields ⟨w, .i, .branch, row.2⟩ =
        some (.i (w.extractLsb' 21 5) (w.extractLsb' 16 5) (w.extractLsb' 0 16)) ∧
      ∀ p : Params, render p ⟨w, .i, .branch, row.2⟩ =
        match regName p (w.extractLsb' 16 5), regName p (w.extractLsb' 21 5) with
        | none, _ => .error (.unsupportedRegister (w.extractLsb' 16 5))
        | some _, none => .error (.unsupportedRegister (w.extractLsb' 21 5))
        | some a, some b =>
          .ok (row.2 ++ " " ++ "$" ++ a ++ ", " ++ "$" ++ b ++ ", " ++
            String.ofList (Nat.toDigits 16 (w.extractLsb' 0 16).toNat))) ∧
  (∀ ex ∈ ([(0x11090003, "beq", "beq $t1, $t0, 3"), (0x10000000, "beq", "beq $zero, $zero, 0"),
      (0x1540FFFC, "bne", "bne $zero, $t2, fffc")] : List (Word × String × String)),
    decode ex.1 = .ok ⟨ex.1, .i, .branch, ex.2.1⟩ ∧
    render Params.default ⟨ex.1, .i, .branch, ex.2.1⟩ = .ok ex.2.2)

/-- R94: `j`. Every word of opcode 2, and no other, has Format J; it decodes to `j` with the raw address, and renders
with no error. The rule's examples. -/
def Obligations.JumpWordsDecodeAndRender : Prop :=
  (∀ w : Word, (classify w = .j ↔ w &&& 0xFC000000 = 0x08000000) ∧
    (w &&& 0xFC000000 = 0x08000000 →
      decode w = .ok ⟨w, .j, .jump, "j"⟩ ∧
      recordFields ⟨w, .j, .jump, "j"⟩ = some (.j (w.extractLsb' 0 26)) ∧
      ∀ p : Params, render p ⟨w, .j, .jump, "j"⟩ =
        .ok ("j" ++ " " ++ String.ofList (Nat.toDigits 16 (w.extractLsb' 0 26).toNat)))) ∧
  (∀ ex ∈ ([(0x08000064, "j 64"), (0x08000000, "j 0"), (0x0BFFFFFF, "j 3ffffff")] : List (Word × String)),
    decode ex.1 = .ok ⟨ex.1, .j, .jump, "j"⟩ ∧ render Params.default ⟨ex.1, .j, .jump, "j"⟩ = .ok ex.2)

/-! ## The twelve instructions: what exec answers, for every state and every operand, with the whole frame -/

/-- `add`, `addu`, `sub`, `subu` complete in every state: the next state has the record of the instruction appended and
its word on the input port, and nothing else differs (no memory, no parameter, no line, no error). That the input port
carries the record's word is the model's choice (log 8); that `raw` is made up from the fields is the model's inference
(log 11). -/
def Obligations.AddSubInstructionsDeliverTheirRecords : Prop :=
  ∀ (rs rt rd : RegIndex) (shamt : Shamt) (s : State),
    ∀ row ∈ [(Instr.add rs rt rd shamt, Kind.add, "add", 32#6), (.addu rs rt rd shamt, .add, "addu", 33#6),
        (.sub rs rt rd shamt, .sub, "sub", 34#6), (.subu rs rt rd shamt, .sub, "subu", 35#6)],
      ∃ r : Record, exec row.1 s = .next { s with word := some r.raw, records := s.records ++ [r] } ∧
        r.format = .r ∧ r.kind = row.2.1 ∧ r.mnemonic = row.2.2.1 ∧
        r.raw.extractLsb' 26 6 = 0#6 ∧ recordFields r = some (.r rs rt rd shamt row.2.2.2) ∧ decode r.raw = .ok r

/-- `sll`, `srl` and `jr` complete in every state, with the same frame. That the input port carries the record's word is
the model's choice (log 8); that `raw` is made up from the fields is the model's inference (log 11). -/
def Obligations.ShiftAndJumpRegisterInstructionsDeliverTheirRecords : Prop :=
  ∀ (rs rt rd : RegIndex) (shamt : Shamt) (s : State),
    ∀ row ∈ [(Instr.sll rs rt rd shamt, Kind.shift, "sll", 0#6), (.srl rs rt rd shamt, .shift, "srl", 2#6),
        (.jr rs rt rd shamt, .jump, "jr", 8#6)],
      ∃ r : Record, exec row.1 s = .next { s with word := some r.raw, records := s.records ++ [r] } ∧
        r.format = .r ∧ r.kind = row.2.1 ∧ r.mnemonic = row.2.2.1 ∧
        r.raw.extractLsb' 26 6 = 0#6 ∧ recordFields r = some (.r rs rt rd shamt row.2.2.2) ∧ decode r.raw = .ok r

/-- `addi`, `addiu`, `beq`, `bne` complete in every state, with the same frame; the immediate is delivered raw. That the
input port carries the record's word is the model's choice (log 8); that `raw` is made up from the fields is the
model's inference (log 11). -/
def Obligations.ImmediateInstructionsDeliverTheirRecords : Prop :=
  ∀ (rs rt : RegIndex) (imm : Imm) (s : State),
    ∀ row ∈ [(Instr.addi rs rt imm, Kind.add, "addi", 8#6), (.addiu rs rt imm, .add, "addiu", 9#6),
        (.beq rs rt imm, .branch, "beq", 4#6), (.bne rs rt imm, .branch, "bne", 5#6)],
      ∃ r : Record, exec row.1 s = .next { s with word := some r.raw, records := s.records ++ [r] } ∧
        r.format = .i ∧ r.kind = row.2.1 ∧ r.mnemonic = row.2.2.1 ∧
        r.raw.extractLsb' 26 6 = row.2.2.2 ∧ recordFields r = some (.i rs rt imm) ∧ decode r.raw = .ok r

/-- `j` completes in every state, with the same frame; the address is delivered raw. That the input port carries the
record's word is the model's choice (log 8); that `raw` is made up from the fields is the model's inference (log 11). -/
def Obligations.JumpInstructionDeliversItsRecord : Prop :=
  ∀ (addr : Addr) (s : State),
    ∃ r : Record, exec (.j addr) s = .next { s with word := some r.raw, records := s.records ++ [r] } ∧
      r.format = .j ∧ r.kind = .jump ∧ r.mnemonic = "j" ∧
      r.raw.extractLsb' 26 6 = 2#6 ∧ recordFields r = some (.j addr) ∧ decode r.raw = .ok r

/-! ## Ports -/

/-- R28: the outputs. They are a function of the current input alone; every slice is the rule's slice of the word; `ok`
is 1 and `err` 0 when decode returns a record, and then format, kind and mnem carry the codes of its members, read
through the rule's own lists; `ok` is 0 and `err` the code of the error when it raises; the codes the rule says are
never driven are not. R112: the codes of the six error kinds, and which function raises which. -/
def Obligations.PortsCarryTheRecord : Prop :=
  (∀ (w : Word) (s s' : State), s.word = some w → s'.word = some w → s.outputs = s'.outputs ∧ s.outputs = portsOf w) ∧
  (∀ w : Word, let o := portsOf w
    o.raw = w ∧ o.opcode = w.extractLsb' 26 6 ∧ o.rs = w.extractLsb' 21 5 ∧ o.rt = w.extractLsb' 16 5 ∧
    o.rd = w.extractLsb' 11 5 ∧ o.shamt = w.extractLsb' 6 5 ∧ o.funct = w.extractLsb' 0 6 ∧
    o.imm = w.extractLsb' 0 16 ∧ o.addr = w.extractLsb' 0 26 ∧
    o.err ∈ [0#3, 3, 4] ∧ o.kind ∉ [6#3, 7] ∧ o.mnem ∉ [12#4, 13, 14]) ∧
  (∀ (w : Word) (r : Record), decode w = .ok r → let o := portsOf w
    o.ok = 1 ∧ o.err = 0 ∧ o.raw = r.raw ∧
    [Format.r, .i, .j, .unrecognized][o.format.toNat]? = some r.format ∧
    [Kind.add, .sub, .shift, .jump, .branch, .unknown][o.kind.toNat]? = some r.kind ∧
    ["add", "addu", "sub", "subu", "sll", "srl", "jr", "addi", "addiu", "beq", "bne", "j"][o.mnem.toNat]? =
      some r.mnemonic) ∧
  (∀ (w : Word) (e : Error), decode w = .error e → let o := portsOf w
    o.ok = 0 ∧ ((e = .unrecognizedFormat w ∧ o.err = 3) ∨ (e = .unsupportedFunct w ∧ o.err = 4))) ∧
  [ErrorKind.outOfBounds, .invalidArgument, .unrecognizedFormat, .unsupportedFunct, .unsupportedRegister,
    .unhandledTemplate].map errorCode = [1#3, 2, 3, 4, 5, 6] ∧
  (∀ (p : Params) (buf : Option Memory) (o : Nat) (e : Error), readWord p buf o = .error e →
    errorKind e ∈ [ErrorKind.outOfBounds, .invalidArgument]) ∧
  (∀ (w : Word) (e : Error), decode w = .error e →
    errorKind e ∈ [ErrorKind.unrecognizedFormat, .unsupportedFunct]) ∧
  (∀ (p : Params) (r : Record) (e : Error), render p r = .error e →
    errorKind e ∈ [ErrorKind.unsupportedRegister, .unhandledTemplate])

/-- R29: the outputs for a word that fails to decode. -/
def Obligations.PortsOnFailedDecode : Prop :=
  ∀ w : Word, let o := portsOf w
    (w.extractLsb' 26 6 ∉ [0#6, 2, 4, 5, 8, 9] →
      o.ok = 0 ∧ o.err = 3 ∧ o.format = 3 ∧ o.kind = 5 ∧ o.mnem = 15) ∧
    (w.extractLsb' 26 6 = 0 → w.extractLsb' 0 6 ∉ [0#6, 2, 8, 32, 33, 34, 35] →
      o.ok = 0 ∧ o.err = 4 ∧ o.format = 0 ∧ o.kind = 5 ∧ o.mnem = 15) ∧
    (o.ok = 0 → o.raw = w ∧ o.opcode = w.extractLsb' 26 6 ∧ o.rs = w.extractLsb' 21 5 ∧
      o.rt = w.extractLsb' 16 5 ∧ o.rd = w.extractLsb' 11 5 ∧ o.shamt = w.extractLsb' 6 5 ∧
      o.funct = w.extractLsb' 0 6 ∧ o.imm = w.extractLsb' 0 16 ∧ o.addr = w.extractLsb' 0 26)

/-! ## WordReader and the buffer -/

/-- R36: the word read at an offset is the big-endian join of the four bytes there, as slices and as the formula; the
bytes 00 22 18 20 give 0x00221820. -/
def Obligations.WordsAreBigEndian : Prop :=
  (∀ (p : Params) (m : Memory) (o : Nat) (w : Word), readWord p (some m) o = .ok w →
    m.read o = some (w.extractLsb' 24 8) ∧ m.read (o + 1) = some (w.extractLsb' 16 8) ∧
    m.read (o + 2) = some (w.extractLsb' 8 8) ∧ m.read (o + 3) = some (w.extractLsb' 0 8)) ∧
  (∀ b0 b1 b2 b3 : Byte,
    (joinBytes b0 b1 b2 b3).toNat = b0.toNat <<< 24 ||| b1.toNat <<< 16 ||| b2.toNat <<< 8 ||| b3.toNat) ∧
  (∀ (p : Params) (m : Memory) (o : Nat) (b0 b1 b2 b3 : Byte),
    m.read o = some b0 → m.read (o + 1) = some b1 → m.read (o + 2) = some b2 → m.read (o + 3) = some b3 →
    ∀ w, readWord p (some m) o = .ok w → w = joinBytes b0 b1 b2 b3) ∧
  readWord Params.default (some (Memory.ofBytes [0x00, 0x22, 0x18, 0x20])) 0 = .ok 0x00221820

/-- R39: `read_word` on every buffer in canonical form and every offset, with unbounded offsets: the checks in the
rule's order, then the Word of the four bytes at the offset; the rule's example. -/
def Obligations.ReadWordChecksInOrder : Prop :=
  (∀ (p : Params) (o : Nat), p.offsetBits = none →
    readWord p none o = .error (.invalidArgument .absentBuffer) ∧
    ∀ m : Memory, m.wf = true →
      (o % 4 ≠ 0 → readWord p (some m) o = .error (.invalidArgument (.misaligned o))) ∧
      (o % 4 = 0 → m.length < o + 4 → readWord p (some m) o = .error (.outOfBounds o m.length)) ∧
      (o % 4 = 0 → o + 4 ≤ m.length →
        ∃ b0 b1 b2 b3 : Byte, m.read o = some b0 ∧ m.read (o + 1) = some b1 ∧ m.read (o + 2) = some b2 ∧
          m.read (o + 3) = some b3 ∧
          readWord p (some m) o = .ok (b0.setWidth 32 <<< 24 ||| b1.setWidth 32 <<< 16 |||
            b2.setWidth 32 <<< 8 ||| b3.setWidth 32))) ∧
  readWord Params.default (some (Memory.ofBytes [0, 0, 0])) 2 = .error (.invalidArgument (.misaligned 2))

/-- `read_word` depends only on the length of the buffer and the four bytes at the offset: a change of the buffer by
its caller elsewhere is not seen, and a change inside is (20_memory.md R43, R46). -/
def Obligations.ReadWordSeesOnlyItsFourBytes : Prop :=
  ∀ (p : Params) (m : Memory) (o a : Nat) (b : Byte),
    (a < o ∨ o + 4 ≤ a → readWord p (some (m.write a b)) o = readWord p (some m) o) ∧
    (∀ w k, readWord p (some m) o = .ok w → k < 4 → a = o + k →
      ∃ w', readWord p (some (m.write a b)) o = .ok w' ∧
        ∀ j, j < 4 → w'.extractLsb' (24 - 8 * j) 8 = if j = k then b else w.extractLsb' (24 - 8 * j) 8)

/-- With OFFSET_BITS set to `k`, an aligned offset within 4 of its maximum is rejected, never wrapped, whatever buffer is
present; every other read (a smaller offset, a misaligned one, an absent buffer) answers as without the parameter
(92_eei_decisions.md D17). The error kind OutOfBounds is the model's choice
(log 10). -/
def Obligations.FixedOffsetWidthRejectsAtItsMaximum : Prop :=
  ∀ (names : Option (Vector String 20)) (k o : Nat),
    (∀ m : Memory, o % 4 = 0 → 2 ^ k ≤ o + 4 →
      readWord ⟨some k, names⟩ (some m) o = .error (.outOfBounds o m.length)) ∧
    (∀ buf : Option Memory, o % 4 ≠ 0 ∨ o + 4 < 2 ^ k ∨ buf = none →
      readWord ⟨some k, names⟩ buf o = readWord ⟨none, names⟩ buf o) ∧
    readWord ⟨some k, names⟩ none o = .error (.invalidArgument .absentBuffer) ∧
    (∀ m : Memory, o % 4 ≠ 0 → readWord ⟨some k, names⟩ (some m) o = .error (.invalidArgument (.misaligned o)))

/-! ## The Disassembler -/

/-- R97: by default, the twelve names and the twenty indices without one; a register operand is `$` and the name, and an
index without a name is the error that carries it. -/
def Obligations.RegisterNameTable : Prop :=
  (∀ i : RegIndex, regName Params.default i =
    [some "zero", some "at", none, none, none, none, none, none,
     some "t0", some "t1", some "t2", some "t3", some "t4", some "t5", some "t6", some "t7",
     none, none, none, none, none, none, none, none, some "t8", some "t9", none, none, none, none, none, none][i.toNat]?.join) ∧
  (∀ i : RegIndex, renderReg Params.default i =
    match regName Params.default i with
    | some n => .ok ("$" ++ n)
    | none => .error (.unsupportedRegister i))

/-- REGNAME_EXT = true: the names of R97 stay and the caller's twenty names stand at the twenty indices that have none.
That the caller lists them in rising order of index is the model's choice (log 9). -/
def Obligations.RegisterNameExtension : Prop :=
  ∀ (ext : Vector String 20) (bits : Option Nat) (i : RegIndex),
    (∀ n, regName Params.default i = some n → regName ⟨bits, some ext⟩ i = some n) ∧
    (2 ≤ i.toNat → i.toNat ≤ 7 → regName ⟨bits, some ext⟩ i = ext[i.toNat - 2]?) ∧
    (16 ≤ i.toNat → i.toNat ≤ 23 → regName ⟨bits, some ext⟩ i = ext[i.toNat - 10]?) ∧
    (26 ≤ i.toNat → regName ⟨bits, some ext⟩ i = ext[i.toNat - 12]?)

/-- R109: `render` as the rule's pseudocode prints it, on every record, made by decode or by hand; `add` with rs 2 and
rt 3 reports index 2. -/
def Obligations.RenderFollowsPseudocode : Prop :=
  (∀ (p : Params) (r : Record),
    let w := r.raw
    let reg := fun i : RegIndex => match regName p i with
      | some n => (Except.ok ("$" ++ n) : Except Error String)
      | none => .error (.unsupportedRegister i)
    let line := fun ops : Except Error String => match ops with
      | .ok t => (Except.ok (r.mnemonic ++ " " ++ t) : Except Error String)
      | .error e => .error e
    let add3 : Except Error String := do
      let a ← reg (w.extractLsb' 21 5); let b ← reg (w.extractLsb' 16 5); let c ← reg (w.extractLsb' 11 5)
      pure (a ++ ", " ++ b ++ ", " ++ c)
    render p r = match r.format, r.kind with
      | .r, .add => line add3
      | .r, .sub => line add3
      | .r, .shift => line (do
          let a ← reg (w.extractLsb' 21 5); let b ← reg (w.extractLsb' 16 5)
          pure (a ++ ", " ++ b ++ ", " ++ renderDec (w.extractLsb' 6 5).toNat))
      | .r, .jump => line (reg (w.extractLsb' 21 5))
      | .i, .add => line (do
          let a ← reg (w.extractLsb' 21 5); let b ← reg (w.extractLsb' 16 5)
          pure (a ++ ", " ++ b ++ ", " ++ renderHex (w.extractLsb' 0 16).toNat))
      | .i, .branch => line (do
          let a ← reg (w.extractLsb' 16 5); let b ← reg (w.extractLsb' 21 5)
          pure (a ++ ", " ++ b ++ ", " ++ renderHex (w.extractLsb' 0 16).toNat))
      | .j, .jump => line (.ok (renderHex (w.extractLsb' 0 26).toNat))
      | f, k => .error (.unhandledTemplate f k)) ∧
  render Params.default ⟨0x00430020, .r, .add, "add"⟩ = .error (.unsupportedRegister 2)

/-- R101: a record made by decode never raises UnhandledTemplate; the only error rendering it can raise is
UnsupportedRegister, of an index without a name. -/
def Obligations.DecodedRecordsHaveATemplate : Prop :=
  ∀ (p : Params) (w : Word) (r : Record), decode w = .ok r →
    (∀ f k, render p r ≠ .error (.unhandledTemplate f k)) ∧
    ∀ e, render p r = .error e → ∃ i, e = .unsupportedRegister i ∧ regName p i = none

/-- R103, R104: the spelling of hexadecimal operands: lower-case digits, no prefix, no leading zero, zero as one digit,
the value of the field; the immediate and the address are read unsigned; the shift amount is decimal. -/
def Obligations.HexadecimalSpelling : Prop :=
  (∀ n : Nat, n < 2 ^ 26 →
    let ds := (renderHex n).toList
    ds ≠ [] ∧ (∀ c ∈ ds, c ∈ "0123456789abcdef".toList) ∧ (ds.head? = some '0' → ds = ['0']) ∧
    ds.foldl (fun v c => 16 * v + "0123456789abcdef".toList.idxOf c) 0 = n) ∧
  (∀ (p : Params) (w : Word),
    renderOperand p w .immHex = .ok (renderHex (w.extractLsb' 0 16).toNat) ∧
    renderOperand p w .addrHex = .ok (renderHex (w.extractLsb' 0 26).toNat) ∧
    renderOperand p w .shamtDecimal = .ok (String.ofList (Nat.toDigits 10 (w.extractLsb' 6 5).toNat))) ∧
  renderHex 0x64 = "64"

/-- R105, R106, R107: when `render_all` succeeds its text is the header line and then exactly one line per record, in
input order, each ended by one newline; it succeeds exactly when every record renders. An empty sequence gives the
header line alone. -/
def Obligations.RenderAllGivesHeaderAndLinesInOrder : Prop :=
  (∀ (p : Params) (rs : List Record) (label t : String),
    renderAll p rs label = .ok t ↔
      ∃ ls : List String, ls.length = rs.length ∧
        (∀ i (h : i < rs.length) (h' : i < ls.length), render p rs[i] = .ok ls[i]) ∧
        t = "section \"" ++ label ++ "\":\n" ++ String.join (ls.map (· ++ "\n"))) ∧
  (∀ (p : Params) (label : String), renderAll p [] label = .ok ("section \"" ++ label ++ "\":\n"))

/-- R108: a failing `render_all` reports the error of the first record, in input order, whose `render` fails, with its
index and no text; on the whole path the byte offset `s + 4 * index` is reported too. -/
def Obligations.RenderAllReportsTheFirstFailure : Prop :=
  (∀ (p : Params) (rs : List Record) (label : String) (e : Error) (i : Nat),
    renderAll p rs label = .error (e, i) ↔
      ∃ h : i < rs.length, render p rs[i] = .error e ∧
        ∀ j (hj : j < i), ∃ l, render p (rs[j]'(Nat.lt_trans hj h)) = .ok l) ∧
  (∀ (p : Params) (buf : Option Memory) (s n : Nat) (label : String) (rs : List Record) (e : Error) (i : Nat),
    decodeAll p buf s n = .ok rs → renderAll p rs label = .error (e, i) →
      disassemble p buf s n label = .error ⟨e, i, some (s + 4 * i)⟩)

/-- R80: the sequence decode: word `i` is read at `s + 4 * i` and decoded on its own; the first failure in input order
is the one reported, with its index and byte offset; a failing word is never skipped. -/
def Obligations.SequenceDecodeIsWordByWord : Prop :=
  ∀ (p : Params) (buf : Option Memory) (s n : Nat),
    (∀ rs, decodeAll p buf s n = .ok rs ↔
      rs.length = n ∧ ∀ i (h : i < rs.length), ∃ w, readWord p buf (s + 4 * i) = .ok w ∧ decode w = .ok rs[i]) ∧
    (∀ rep : ErrorReport, decodeAll p buf s n = .error rep ↔
      rep.index < n ∧ rep.byteOffset = some (s + 4 * rep.index) ∧
      (readWord p buf (s + 4 * rep.index) = .error rep.error ∨
        ∃ w, readWord p buf (s + 4 * rep.index) = .ok w ∧ decode w = .error rep.error) ∧
      ∀ j, j < rep.index → ∃ w r, readWord p buf (s + 4 * j) = .ok w ∧ decode w = .ok r)

/-- R110, with the staged order of R121: the whole path reads and decodes every word before any is rendered; a decode
error at a high index is reported before a render error at a low one (95_test_vectors.md P5). -/
def Obligations.WholePathIsStaged : Prop :=
  (∀ (p : Params) (buf : Option Memory) (s n : Nat) (label : String),
    (∀ rep, decodeAll p buf s n = .error rep → disassemble p buf s n label = .error rep) ∧
    (∀ rs e i, decodeAll p buf s n = .ok rs → renderAll p rs label = .error (e, i) →
      disassemble p buf s n label = .error ⟨e, i, some (s + 4 * i)⟩) ∧
    (∀ rs t, decodeAll p buf s n = .ok rs → renderAll p rs label = .ok t →
      disassemble p buf s n label = .ok t)) ∧
  disassemble Params.default (some (Memory.ofBytes [0x00, 0x22, 0x18, 0x20, 0x00, 0x00, 0x00, 0x3f])) 0 2 "t" =
    .error ⟨.unsupportedFunct 0x3F, 1, some 4⟩ ∧
  disassemble Params.default (some (Memory.ofBytes [0x00, 0x22, 0x18, 0x20, 0x00, 0x00, 0x00, 0x3f])) 0 1 "t" =
    .error ⟨.unsupportedRegister 2, 0, some 0⟩

/-! ## The machine -/

/-- A step runs the decoded instruction: when the run still has a word to decode and the four bytes at its offset
decode to `i`, the step is exactly `exec i`; nothing is added around it. -/
def Obligations.StepExecutesTheDecodedInstruction : Prop :=
  ∀ (s : State) (m : Memory) (b0 b1 b2 b3 : Byte) (i : Instr),
    s.error = none → s.records.length < s.count → s.buffer = some m →
    (s.offset + 4 * s.records.length) % 4 = 0 → s.offset + 4 * s.records.length + 4 ≤ m.length →
    offsetOverflows s.params (s.offset + 4 * s.records.length) = false →
    m.read (s.offset + 4 * s.records.length) = some b0 → m.read (s.offset + 4 * s.records.length + 1) = some b1 →
    m.read (s.offset + 4 * s.records.length + 2) = some b2 → m.read (s.offset + 4 * s.records.length + 3) = some b3 →
    decodeBytes [b0, b1, b2, b3] = .ok (i, []) →
    step s = exec i s

/-- A word that does not decode ends the run: the report holds the error, the index and the byte offset (R122, R80), the
outputs show ok 0 and the code of the error for that word (R29), and no line is kept (R108). The inputs of the call and
the parameters are as before. That the word stays on the input port is the model's choice (log 8), and so is that the
records made before it stay in State (log 14). -/
def Obligations.StepRaisesDecodeErrors : Prop :=
  ∀ (s : State) (w : Word) (e : Error),
    s.error = none → s.records.length < s.count →
    readWord s.params s.buffer (s.offset + 4 * s.records.length) = .ok w → decode w = .error e →
    ∃ t, step s = .next t ∧
      t = { s with word := some w, lines := [],
                   error := some ⟨e, s.records.length, some (s.offset + 4 * s.records.length)⟩ } ∧
      t.phase = .ended ∧ t.outputs.ok = 0 ∧ t.outputs.raw = w ∧
      ((e = .unrecognizedFormat w ∧ t.outputs.err = 3) ∨ (e = .unsupportedFunct w ∧ t.outputs.err = 4))

/-- A read that fails ends the run with its report; nothing is decoded, no record is made and no line is kept (R122, R80,
R108). The inputs of the call and the parameters are as before. That the input port is left undriven is the model's
choice (log 8), and so is that the records made before it stay in State (log 14). -/
def Obligations.StepRaisesReadErrors : Prop :=
  ∀ (s : State) (e : Error),
    s.error = none → s.records.length < s.count →
    readWord s.params s.buffer (s.offset + 4 * s.records.length) = .error e →
    ∃ u t, step s = .next t ∧
      t = { s with word := none, undriven := u, lines := [],
                   error := some ⟨e, s.records.length, some (s.offset + 4 * s.records.length)⟩ } ∧
      t.phase = .ended

/-- Once every word is decoded and a label was given, each step renders the next record: its line is appended, or its
error ends the run and no line is kept (R107, R108). Rendering touches neither the buffer nor the input port. That a
step renders one record is the model's choice (log 4), and so is that rendering leaves the input port alone (log 8) and
that the records stay in State beside an error (log 14). -/
def Obligations.StepRendersTheNextRecord : Prop :=
  ∀ (s : State) (r : Record),
    s.error = none → s.count ≤ s.records.length → s.label ≠ none → s.records[s.lines.length]? = some r →
    (∀ l, render s.params r = .ok l → step s = .next { s with lines := s.lines ++ [l] }) ∧
    (∀ e, render s.params r = .error e →
      ∃ t, step s = .next t ∧
        t = { s with lines := [],
                     error := some ⟨e, s.lines.length, s.buffer.map fun _ => s.offset + 4 * s.lines.length⟩ } ∧
        t.phase = .ended)

/-- The only stop of the machine is the end of the run: a step faults exactly then, is never refused, and no
instruction stops in any state. That a step asked for after the end of the run faults with `runEnded` is the model's
choice (log 6). -/
def Obligations.OnlyTheEndOfTheRunStops : Prop :=
  (∀ s : State, (step s = .fault .runEnded ↔ s.phase = .ended) ∧ (∀ f, step s = .fault f → s.phase = .ended) ∧
    ∀ why, step s ≠ .refused why) ∧
  ∀ (i : Instr) (s : State), ∃ t, exec i s = .next t ∧ t.error = s.error ∧ t.records.length = s.records.length + 1

/-- No step writes the buffer, the call's inputs or the parameters (R31, R32, R40); lines are appended to, or cleared
beside an error; a step that raises an error makes no record and keeps no line (R122, R108). That the records made so far stay in State, so that they are only ever appended
to, also beside an error, is the model's choice (log 14). That one step makes at most one record or one line, and never
both, is the model's choice (log 4). -/
def Obligations.StepsNeverWriteTheBuffer : Prop :=
  ∀ s t : State, step s = .next t →
    t.buffer = s.buffer ∧ t.params = s.params ∧ t.offset = s.offset ∧ t.count = s.count ∧ t.label = s.label ∧
    (t.records = s.records ∨ ∃ r, t.records = s.records ++ [r]) ∧
    (t.lines = s.lines ∨ (t.lines = [] ∧ t.error ≠ none) ∨ ∃ l, t.lines = s.lines ++ [l]) ∧
    (t.records = s.records ∨ t.lines = s.lines) ∧
    s.error = none ∧
    (t.error = none ∨ (t.records = s.records ∧ t.lines = []))

/-- The state before any call: the open parameters are the spec's defaults, `word` is undriven (R30); the other values
are the model's choice (log 2). -/
def Obligations.ResetHoldsNothing : Prop :=
  State.reset.params.offsetBits = none ∧ State.reset.params.regNames = none ∧ State.reset.word = none ∧
  State.reset.buffer = none ∧ State.reset.records = [] ∧ State.reset.lines = [] ∧ State.reset.error = none ∧
  State.reset.count = 0 ∧ State.reset.phase = .ended

/-- The invariants hold at reset, at the start of every call over a buffer, and (the bookkeeping alone) at the start of
every call over records; every buffer of bytes is in canonical form, and the caller's own change of a byte keeps it so.
The values of the reset state are the model's choice (log 2). -/
def Obligations.InvariantsHoldAtResetAndAtEveryCall : Prop :=
  State.reset.Bounded ∧ State.reset.Faithful ∧ State.reset.Canonical ∧
  (∀ (s : State) (buf : Option Memory) (o n : Nat) (l : Option String), (s.start buf o n l).Faithful) ∧
  (∀ (s : State) (rs : List Record) (l : String), (s.startRender rs l).Bounded ∧ (s.startRender rs l).Canonical) ∧
  (∀ (s : State) (bs : List Byte) (o n : Nat) (l : Option String),
    (s.start (some (Memory.ofBytes bs)) o n l).Canonical) ∧
  (∀ (m : Memory) (a : Nat) (b : Byte), m.wf = true → (m.write a b).wf = true)

/-- Every step keeps the canonical form of the buffer and the bookkeeping of the run, from every state that has them,
whatever made its records. -/
def Obligations.StepsKeepTheBookkeeping : Prop :=
  ∀ s t : State, step s = .next t → (s.Canonical → t.Canonical) ∧ (s.Bounded → t.Bounded)

/-- Every step keeps the agreement of the run's progress with the spec's pure functions. That the records made before an
error stay in State, and so stay in agreement, is the model's choice (log 14). -/
def Obligations.StepsKeepTheRunFaithful : Prop :=
  ∀ s t : State, s.Faithful → step s = .next t → t.Faithful

/-- Every step keeps the records well-formed (R26), whatever the buffer holds. -/
def Obligations.StepsKeepRecordsWellFormed : Prop :=
  ∀ s t : State, (∀ r ∈ s.records, r.wf = true) → step s = .next t → ∀ r ∈ t.records, r.wf = true

/-- The machine computes the spec's functions: every call over a buffer ends, after at most one step per word and, with
a label, one per record, with exactly the result of the sequence decode (R80) or of the whole path (R110). What
one step is, is the model's choice (log 4). -/
def Obligations.EveryCallEndsWithTheSpecifiedResult : Prop :=
  ∀ (s : State) (buf : Option Memory) (o n : Nat) (label : Option String),
    (s.start buf o n label).EndsWith (match label with | none => n | some _ => 2 * n)
      (match label with
       | none => (match decodeAll s.params buf o n with | .ok rs => .records rs | .error e => .failed e)
       | some l => (match disassemble s.params buf o n l with | .ok t => .text t | .error e => .failed e))

/-- A call of `render_all` on any records, made by hand or not, ends after at most one step per record with the text or
with the first error, its index, and no byte offset (R105, R108; 90_conflicts.md C7). What one step is, is the
model's choice (log 4). -/
def Obligations.EveryRenderCallEndsWithTheSpecifiedResult : Prop :=
  ∀ (s : State) (rs : List Record) (label : String),
    (s.startRender rs label).EndsWith rs.length
      (match renderAll s.params rs label with
       | .ok t => .text t
       | .error (e, i) => .failed ⟨e, i, none⟩)

/-- The block keeps nothing from one call to the next (R13, R124): two machines that differ in everything but the
parameters go through the same records, lines, errors and results when the same call is made, over a buffer or of
`render_all`, also after an error. In a call over a buffer their outputs are equal too, once a word has been decoded or
has failed to decode in it, and unless a read has failed. A call of `render_all` leaves the outputs as they were. What
the input port carries beyond the word being decoded is the model's choice (log 8). While `word` is undriven the outputs
are a free value (R30); that they keep one free value until the port is next driven or left undriven again is the
model's choice (log 7). -/
def Obligations.CallsDoNotDependOnHistory : Prop :=
  (∀ (s₁ s₂ : State) (buf : Option Memory) (o n : Nat) (label : Option String) (k : Nat) (t₁ : State),
    s₁.params = s₂.params →
    Host.Core.run Sys2Proof.core k (s₁.start buf o n label) = .next t₁ →
    ∃ t₂ : State, Host.Core.run Sys2Proof.core k (s₂.start buf o n label) = .next t₂ ∧
      t₂.records = t₁.records ∧ t₂.lines = t₁.lines ∧ t₂.error = t₁.error ∧ t₂.result = t₁.result ∧
      (t₁.records ≠ [] ∨ t₁.error ≠ none →
        (∀ rep, t₁.error = some rep → errorKind rep.error ∉ [ErrorKind.outOfBounds, .invalidArgument]) →
        t₂.outputs = t₁.outputs)) ∧
  (∀ (s₁ s₂ : State) (rs : List Record) (label : String) (k : Nat) (t₁ : State),
    s₁.params = s₂.params →
    Host.Core.run Sys2Proof.core k (s₁.startRender rs label) = .next t₁ →
    ∃ t₂ : State, Host.Core.run Sys2Proof.core k (s₂.startRender rs label) = .next t₂ ∧
      t₂.records = t₁.records ∧ t₂.lines = t₁.lines ∧ t₂.error = t₁.error ∧ t₂.result = t₁.result ∧
      t₁.outputs = s₁.outputs ∧ t₂.outputs = s₂.outputs)
end

