-- ==== Sys2Proof/Laws/Decode.lean ====
section
/-! SUPPORT. The slices of an encoded word, the word rebuilt from its slices, and what the classifier and the tables
answer. -/

namespace Sys2Proof

/-- The low part of an append. -/
theorem extract_append_low {m n : Nat} (a : BitVec m) (b : BitVec n) : (a ++ b).extractLsb' 0 n = b := by
  ext i hi
  simp [BitVec.getLsbD_append, hi]

/-- A slice that lies in the high part of an append. -/
theorem extract_append_high {m n : Nat} (k l : Nat) (a : BitVec m) (b : BitVec n) :
    (a ++ b).extractLsb' (n + k) l = a.extractLsb' k l := by
  rw [BitVec.extractLsb'_append_eq_of_le (by omega)]
  simp

/-- A slice that lies in the low part of an append. -/
theorem extract_append_within {m n : Nat} (k l : Nat) (a : BitVec m) (b : BitVec n) (h : k + l ≤ n) :
    (a ++ b).extractLsb' k l = b.extractLsb' k l := by
  ext i hi
  have : k + i < n := by omega
  simp [BitVec.getLsbD_append, this]

section
variable (rs rt rd : RegIndex) (sh : Shamt) (f op : BitVec 6) (imm : Imm) (a : Addr)

@[simp] theorem opcodeOf_encodeR : opcodeOf (encodeR rs rt rd sh f) = 0 :=
  (extract_append_high 20 6 _ f).trans ((extract_append_high 15 6 _ sh).trans ((extract_append_high 10 6 _ rd).trans
    ((extract_append_high 5 6 _ rt).trans ((extract_append_high 0 6 _ rs).trans (by decide)))))

@[simp] theorem rsOf_encodeR : rsOf (encodeR rs rt rd sh f) = rs :=
  (extract_append_high 15 5 _ f).trans ((extract_append_high 10 5 _ sh).trans ((extract_append_high 5 5 _ rd).trans
    ((extract_append_high 0 5 _ rt).trans (extract_append_low _ rs))))

@[simp] theorem rtOf_encodeR : rtOf (encodeR rs rt rd sh f) = rt :=
  (extract_append_high 10 5 _ f).trans ((extract_append_high 5 5 _ sh).trans ((extract_append_high 0 5 _ rd).trans
    (extract_append_low _ rt)))

@[simp] theorem rdOf_encodeR : rdOf (encodeR rs rt rd sh f) = rd :=
  (extract_append_high 5 5 _ f).trans ((extract_append_high 0 5 _ sh).trans (extract_append_low _ rd))

@[simp] theorem shamtOf_encodeR : shamtOf (encodeR rs rt rd sh f) = sh :=
  (extract_append_high 0 5 _ f).trans (extract_append_low _ sh)

@[simp] theorem functOf_encodeR : functOf (encodeR rs rt rd sh f) = f := extract_append_low _ f

@[simp] theorem opcodeOf_encodeI : opcodeOf (encodeI op rs rt imm) = op :=
  (extract_append_high 10 6 _ imm).trans ((extract_append_high 5 6 _ rt).trans ((extract_append_high 0 6 _ rs).trans
    BitVec.extractLsb'_eq_self))

@[simp] theorem rsOf_encodeI : rsOf (encodeI op rs rt imm) = rs :=
  (extract_append_high 5 5 _ imm).trans ((extract_append_high 0 5 _ rt).trans (extract_append_low _ rs))

@[simp] theorem rtOf_encodeI : rtOf (encodeI op rs rt imm) = rt :=
  (extract_append_high 0 5 _ imm).trans (extract_append_low _ rt)

@[simp] theorem immOf_encodeI : immOf (encodeI op rs rt imm) = imm := extract_append_low _ imm

@[simp] theorem opcodeOf_encodeJ : opcodeOf (encodeJ a) = 2 :=
  (extract_append_high 0 6 _ a).trans (by decide)

@[simp] theorem addrOf_encodeJ : addrOf (encodeJ a) = a := extract_append_low _ a

end

/-- Two adjacent slices join to one. -/
theorem extract_join (w : Word) (s l₁ l₂ : Nat) :
    w.extractLsb' (s + l₁) l₂ ++ w.extractLsb' s l₁ = w.extractLsb' s (l₂ + l₁) :=
  BitVec.extractLsb'_append_extractLsb'_eq_extractLsb' rfl

/-- A word of opcode 0 is the format R word of its slices: no bit is lost (30_encoding.md R50). -/
theorem encodeR_of_slices (w : Word) (h : opcodeOf w = 0) :
    encodeR (rsOf w) (rtOf w) (rdOf w) (shamtOf w) (functOf w) = w := by
  have e : opcodeOf w ++ rsOf w ++ rtOf w ++ rdOf w ++ shamtOf w ++ functOf w = w.extractLsb' 0 32 := by
    rw [opcodeOf, rsOf, rtOf, rdOf, shamtOf, functOf, extract_join w 21 5 6, extract_join w 16 5 11,
      extract_join w 11 5 16, extract_join w 6 5 21, extract_join w 0 6 26]
  rw [h] at e
  exact e.trans BitVec.extractLsb'_eq_self

/-- Every word is the format I word of its slices (30_encoding.md R51). -/
theorem encodeI_of_slices (w : Word) : encodeI (opcodeOf w) (rsOf w) (rtOf w) (immOf w) = w := by
  have e : opcodeOf w ++ rsOf w ++ rtOf w ++ immOf w = w.extractLsb' 0 32 := by
    rw [opcodeOf, rsOf, rtOf, immOf, extract_join w 21 5 6, extract_join w 16 5 11, extract_join w 0 16 16]
  exact e.trans BitVec.extractLsb'_eq_self

/-- A word of opcode 2 is the format J word of its address (30_encoding.md R52). -/
theorem encodeJ_of_slices (w : Word) (h : opcodeOf w = 2) : encodeJ (addrOf w) = w := by
  have e : opcodeOf w ++ addrOf w = w.extractLsb' 0 32 := by
    rw [opcodeOf, addrOf, extract_join w 0 26 6]
  rw [h] at e
  exact e.trans BitVec.extractLsb'_eq_self

/-- What the classifier answers, opcode by opcode (30_encoding.md R49). -/
theorem classify_cases (w : Word) :
    (opcodeOf w = 0 ∧ classify w = .r) ∨ (opcodeOf w = 2 ∧ classify w = .j) ∨
    (opcodeOf w = 4 ∧ classify w = .i) ∨ (opcodeOf w = 5 ∧ classify w = .i) ∨
    (opcodeOf w = 8 ∧ classify w = .i) ∨ (opcodeOf w = 9 ∧ classify w = .i) ∨
    ((opcodeOf w ≠ 0 ∧ opcodeOf w ≠ 2 ∧ opcodeOf w ≠ 4 ∧ opcodeOf w ≠ 5 ∧ opcodeOf w ≠ 8 ∧ opcodeOf w ≠ 9) ∧
      classify w = .unrecognized) := by
  have key : ∀ op : BitVec 6,
      (op = 0 ∧ (opcodeFormats.lookup op).getD .unrecognized = .r) ∨
      (op = 2 ∧ (opcodeFormats.lookup op).getD .unrecognized = .j) ∨
      (op = 4 ∧ (opcodeFormats.lookup op).getD .unrecognized = .i) ∨
      (op = 5 ∧ (opcodeFormats.lookup op).getD .unrecognized = .i) ∨
      (op = 8 ∧ (opcodeFormats.lookup op).getD .unrecognized = .i) ∨
      (op = 9 ∧ (opcodeFormats.lookup op).getD .unrecognized = .i) ∨
      ((op ≠ 0 ∧ op ≠ 2 ∧ op ≠ 4 ∧ op ≠ 5 ∧ op ≠ 8 ∧ op ≠ 9) ∧
        (opcodeFormats.lookup op).getD .unrecognized = .unrecognized) := by decide
  exact key (opcodeOf w)

/-- Everything `resolve` can answer: one of the twelve rows, or one of the two errors (40_decode_algorithm.md R75). -/
theorem resolve_cases (w : Word) :
    (opcodeOf w = 0 ∧ ∃ k m, (functOf w, k, m) ∈ functTable ∧ resolve w = .ok (.r, k, m)) ∨
    (∃ k m, (opcodeOf w, k, m) ∈ formatITable ∧ resolve w = .ok (.i, k, m)) ∨
    (opcodeOf w = 2 ∧ resolve w = .ok (.j, .jump, .j)) ∨
    ((opcodeOf w ≠ 0 ∧ opcodeOf w ≠ 2 ∧ opcodeOf w ≠ 4 ∧ opcodeOf w ≠ 5 ∧ opcodeOf w ≠ 8 ∧ opcodeOf w ≠ 9) ∧
      resolve w = .error (.unrecognizedFormat w)) ∨
    (opcodeOf w = 0 ∧ (∀ row ∈ functTable, functOf w ≠ row.1) ∧ resolve w = .error (.unsupportedFunct w)) := by
  have keyR : ∀ f : BitVec 6,
      (∃ row ∈ functTable, f = row.1 ∧ functTable.lookup f = some row.2) ∨
      ((∀ row ∈ functTable, f ≠ row.1) ∧ functTable.lookup f = none) := by decide
  rcases classify_cases w with ⟨h, hc⟩ | ⟨h, hc⟩ | ⟨h, hc⟩ | ⟨h, hc⟩ | ⟨h, hc⟩ | ⟨h, hc⟩ | ⟨h, hc⟩
  · rcases keyR (functOf w) with ⟨⟨f, k, m⟩, hm, rfl, hl⟩ | ⟨hm, hl⟩
    · exact .inl ⟨h, k, m, hm, by simp [resolve, hc, hl]⟩
    · exact .inr (.inr (.inr (.inr ⟨h, hm, by simp [resolve, hc, hl]⟩)))
  · exact .inr (.inr (.inl ⟨h, by simp [resolve, hc]⟩))
  · exact .inr (.inl ⟨.branch, .beq, by simp [h, formatITable], by simp [resolve, hc, h, formatITable]⟩)
  · exact .inr (.inl ⟨.branch, .bne, by simp [h, formatITable],
      by simp [resolve, hc, h, formatITable, List.lookup_cons]⟩)
  · exact .inr (.inl ⟨.add, .addi, by simp [h, formatITable],
      by simp [resolve, hc, h, formatITable, List.lookup_cons]⟩)
  · exact .inr (.inl ⟨.add, .addiu, by simp [h, formatITable],
      by simp [resolve, hc, h, formatITable, List.lookup_cons]⟩)
  · exact .inr (.inr (.inr (.inl ⟨h, by simp [resolve, hc]⟩)))

end Sys2Proof
end

