-- ==== Sys2Proof/Laws/Disassembler.lean ====
section
/-! SUPPORT. The template of each format and kind, the digits of a number as the library writes them, and what
`render` answers once its template is known. -/

namespace Sys2Proof.Machine

/-! ## The template table, pair by pair (45_disassembler.md R99) -/

@[simp] theorem template_r_add : template .r .add = some [.reg .rs, .reg .rt, .reg .rd] := rfl
@[simp] theorem template_r_sub : template .r .sub = some [.reg .rs, .reg .rt, .reg .rd] := rfl
@[simp] theorem template_r_shift : template .r .shift = some [.reg .rs, .reg .rt, .shamtDecimal] := rfl
@[simp] theorem template_r_jump : template .r .jump = some [.reg .rs] := rfl
@[simp] theorem template_i_add : template .i .add = some [.reg .rs, .reg .rt, .immHex] := rfl
@[simp] theorem template_i_branch : template .i .branch = some [.reg .rt, .reg .rs, .immHex] := rfl
@[simp] theorem template_j_jump : template .j .jump = some [.addrHex] := rfl

/-- Every pair outside the seven has no template. -/
theorem template_none (f : Format) (k : Kind)
    (h : (f, k) ∉ [(Format.r, Kind.add), (.r, .sub), (.r, .shift), (.r, .jump), (.i, .add), (.i, .branch), (.j, .jump)]) :
    template f k = none := by
  cases f <;> cases k <;> first | rfl | exact absurd h (by decide)

/-! ## Numbers -/

theorem digitChar_eq (d : Nat) (h : d < 16) : digitChar d = Nat.digitChar d := by
  have key : ∀ d, d < 16 → digitChar d = Nat.digitChar d := by decide
  exact key d h

/-- With fuel enough for its digits, `digits` writes a number as the library's `Nat.toDigits` does. -/
theorem digits_eq_toDigits (b : Nat) (hb : 1 < b) (hb' : b ≤ 16) (fuel n : Nat) (hn : n < b ^ (fuel + 1)) :
    digits b (fuel + 1) n = Nat.toDigits b n := by
  induction fuel generalizing n with
  | zero =>
    have hn' : n < b := by simpa using hn
    rw [Nat.toDigits_of_lt_base hn']
    simp [digits, hn', digitChar_eq n (by omega)]
  | succ k ih =>
    rw [Nat.toDigits_eq_if hb, digits]
    split
    · rw [digitChar_eq n (by omega)]
    · rw [ih (n / b) (by rw [Nat.div_lt_iff_lt_mul (by omega), ← Nat.pow_succ]; exact hn),
        digitChar_eq _ (lt_of_lt_of_le (Nat.mod_lt _ (by omega)) hb')]

/-- A hexadecimal operand is the library's hexadecimal numeral (45_disassembler.md R103). -/
theorem renderHex_eq (n : Nat) (h : n < 2 ^ 32) : renderHex n = String.ofList (Nat.toDigits 16 n) := by
  rw [renderHex, digits_eq_toDigits 16 (by decide) (by decide) 7 n (by simpa using h)]

/-- A shift amount is the library's decimal numeral (45_disassembler.md R104). -/
theorem renderDec_eq (n : Nat) (h : n < 2 ^ 5) : renderDec n = String.ofList (Nat.toDigits 10 n) := by
  rw [renderDec, digits_eq_toDigits 10 (by decide) (by decide) 7 n (by omega)]

/-! ## Rendering -/

/-- Everything `render` can answer: no template, an unnamed register of the template, or the line. -/
theorem render_cases (p : Params) (r : Record) :
    (template r.format r.kind = none ∧ render p r = .error (.unhandledTemplate r.format r.kind)) ∨
    (∃ t e, template r.format r.kind = some t ∧ renderOperands p r.raw t = .error e ∧ render p r = .error e) ∨
    (∃ t ops, template r.format r.kind = some t ∧ renderOperands p r.raw t = .ok ops ∧
      render p r = .ok (r.mnemonic ++ " " ++ joinOperands ops)) := by
  cases ht : template r.format r.kind with
  | none => exact .inl ⟨rfl, by simp [render, ht]⟩
  | some t =>
    cases ho : renderOperands p r.raw t with
    | error e => exact .inr (.inl ⟨t, e, rfl, ho, by simp [render, ht, ho]⟩)
    | ok ops => exact .inr (.inr ⟨t, ops, rfl, ho, by simp [render, ht, ho]⟩)

/-- The only error an operand can raise is that of its own unnamed register (45_disassembler.md R98). -/
theorem renderOperand_error (p : Params) (w : Word) (o : OperandForm) (e : Error)
    (h : renderOperand p w o = .error e) : ∃ i, e = .unsupportedRegister i ∧ regName p i = none := by
  cases o with
  | reg role =>
    simp only [renderOperand, renderReg] at h
    cases hn : regName p (roleIndex w role) with
    | none => rw [hn] at h; exact ⟨roleIndex w role, (Except.error.inj h).symm, hn⟩
    | some n => rw [hn] at h; exact absurd h (by simp)
  | _ => exact absurd h (by simp [renderOperand])

/-- The only error the operands of a template can raise is that of an unnamed register (45_disassembler.md R98, R109). -/
theorem renderOperands_error (p : Params) (w : Word) (t : List OperandForm) (e : Error)
    (h : renderOperands p w t = .error e) : ∃ i, e = .unsupportedRegister i ∧ regName p i = none := by
  induction t with
  | nil => exact absurd h (by simp [renderOperands])
  | cons o os ih =>
    cases ho : renderOperand p w o with
    | error e' =>
      rw [renderOperands, ho] at h
      exact Except.error.inj h ▸ renderOperand_error p w o e' ho
    | ok x =>
      cases hs : renderOperands p w os with
      | error e' =>
        rw [renderOperands, ho, hs] at h
        exact ih (by rw [hs]; exact h)
      | ok ts => exact absurd h (by simp [renderOperands, ho, hs])

end Sys2Proof.Machine
end

