-- ==== Sys2Proof/Laws/Memory.lean ====
section
/-! SUPPORT. The byte buffer: every operation keeps the canonical form; what a read gives after a construction or a
write; what WordReader can answer. -/

namespace Sys2Proof.Machine

/-- The canonical form, as an equation on the listed offsets. -/
theorem Memory.wf_iff (m : Memory) : m.wf = true ↔ m.map Prod.fst = List.range m.length := by
  simp [Memory.wf]

@[simp] theorem Memory.length_ofBytes (bs : List Byte) : (Memory.ofBytes bs).length = bs.length := by
  simp [Memory.ofBytes]

/-- A buffer made of bytes is in canonical form. -/
theorem Memory.ofBytes_wf (bs : List Byte) : (Memory.ofBytes bs).wf = true := by
  rw [Memory.wf_iff, Memory.length_ofBytes, Memory.ofBytes, List.map_fst_zip (by simp)]

@[simp] theorem Memory.length_write (m : Memory) (a : Nat) (b : Byte) : (m.write a b).length = m.length := by
  simp [Memory.write]

/-- The caller's change of a byte keeps the canonical form. -/
theorem Memory.write_wf (m : Memory) (a : Nat) (b : Byte) (h : m.wf = true) : (m.write a b).wf = true := by
  rw [Memory.wf_iff] at h ⊢
  rw [Memory.length_write, ← h, Memory.write, List.map_map]
  apply List.map_congr_left
  intro c _
  by_cases hc : c.1 = a <;> simp [hc]

/-- Lookup in a list of cells whose offsets count up from `k`. -/
theorem lookup_zip_range' (bs : List Byte) (k a : Nat) :
    ((List.range' k bs.length).zip bs).lookup (k + a) = bs[a]? := by
  induction bs generalizing k a with
  | nil => simp
  | cons b bs ih =>
    cases a with
    | zero => simp [List.range'_succ]
    | succ a =>
      have h : ((k + (a + 1)) == k) = false := by simp
      rw [List.length_cons, List.range'_succ, List.zip_cons_cons, List.lookup_cons, h]
      have := ih (k + 1) a
      rw [show k + 1 + a = k + (a + 1) by omega] at this
      simpa using this

/-- `BufRead` of a buffer made of bytes is the byte at that position (20_memory.md R31, R32). -/
@[simp] theorem Memory.read_ofBytes (bs : List Byte) (a : Nat) : (Memory.ofBytes bs).read a = bs[a]? := by
  have := lookup_zip_range' bs 0 a
  rw [Nat.zero_add, ← List.range_eq_range'] at this
  exact this

/-- A buffer in canonical form is the buffer of its own bytes. -/
theorem Memory.eq_ofBytes (m : Memory) (h : m.wf = true) : m = Memory.ofBytes (m.map Prod.snd) := by
  rw [Memory.wf_iff] at h
  rw [Memory.ofBytes, List.length_map, ← h, List.zip_map', List.map_id']

/-- In canonical form a read gives a byte exactly inside the buffer (20_memory.md R32). -/
theorem Memory.read_isSome_iff (m : Memory) (h : m.wf = true) (a : Nat) :
    (m.read a).isSome = true ↔ a < m.length := by
  rw [Memory.eq_ofBytes m h]
  simp

/-- A read after the caller's write: the new byte at its offset, every other offset as before. -/
theorem Memory.read_write (m : Memory) (a a' : Nat) (b : Byte) :
    (m.write a b).read a' = if a' = a then (m.read a).map (fun _ => b) else m.read a' := by
  unfold Memory.write Memory.read
  induction m with
  | nil => simp
  | cons c m ih =>
    obtain ⟨c1, c2⟩ := c
    by_cases hc : c1 = a
    · subst hc
      by_cases ha : a' = c1
      · subst ha; simp
      · have h1 : (a' == c1) = false := by simp [ha]
        simp only [List.map_cons, if_pos, List.lookup_cons, h1]
        rw [ih, if_neg ha, if_neg ha]
    · simp only [List.map_cons, if_neg hc]
      rw [List.lookup_cons, List.lookup_cons, List.lookup_cons, ih]
      by_cases ha : a' = a
      · subst ha
        have h1 : (a' == c1) = false := by simp [Ne.symm hc]
        simp [h1]
      · by_cases h2 : a' = c1
        · subst h2; simp [ha]
        · have h3 : (a' == c1) = false := by simp [h2]
          simp [h3, ha]

/-- Everything `readWord` can answer, in the order of its checks (20_memory.md R39). -/
theorem readWord_cases (p : Params) (buf : Option Memory) (o : Nat) :
    (buf = none ∧ readWord p buf o = .error (.invalidArgument .absentBuffer)) ∨
    (∃ m, buf = some m ∧ o % 4 ≠ 0 ∧ readWord p buf o = .error (.invalidArgument (.misaligned o))) ∨
    (∃ m, buf = some m ∧ o % 4 = 0 ∧ readWord p buf o = .error (.outOfBounds o m.length)) ∨
    (∃ m b0 b1 b2 b3, buf = some m ∧ o % 4 = 0 ∧ o + 4 ≤ m.length ∧ offsetOverflows p o = false ∧
      m.read o = some b0 ∧ m.read (o + 1) = some b1 ∧ m.read (o + 2) = some b2 ∧ m.read (o + 3) = some b3 ∧
      readWord p buf o = .ok (joinBytes b0 b1 b2 b3)) := by
  cases buf with
  | none => exact .inl ⟨rfl, rfl⟩
  | some m =>
    refine .inr ?_
    by_cases ha : o % 4 = 0
    · refine .inr ?_
      by_cases hb : m.length < o + 4 ∨ offsetOverflows p o = true
      · exact .inl ⟨m, rfl, ha, by simp [readWord, ha, hb]⟩
      · have hb' := hb
        rw [not_or] at hb'
        cases h0 : m.read o with
        | none => exact .inl ⟨m, rfl, ha, by simp [readWord, ha, hb, h0]⟩
        | some b0 =>
          cases h1 : m.read (o + 1) with
          | none => exact .inl ⟨m, rfl, ha, by simp [readWord, ha, hb, h1]⟩
          | some b1 =>
            cases h2 : m.read (o + 2) with
            | none => exact .inl ⟨m, rfl, ha, by simp [readWord, ha, hb, h2]⟩
            | some b2 =>
              cases h3 : m.read (o + 3) with
              | none => exact .inl ⟨m, rfl, ha, by simp [readWord, ha, hb, h3]⟩
              | some b3 =>
                exact .inr ⟨m, b0, b1, b2, b3, rfl, ha, by omega, by simpa using hb'.2, h0, h1, h2, h3,
                  by simp [readWord, ha, hb, h0, h1, h2, h3]⟩
    · exact .inl ⟨m, rfl, ha, by simp [readWord, ha]⟩

end Sys2Proof.Machine
end

