-- ==== Sys2Proof/Laws/PerInstr.lean ====
section
/-! SUPPORT. Statements made once per instruction. Family `EncodesItsRow`: the word of an instruction selects the
instruction's own row of the opcode map (30_encoding.md R61), and every instruction is well-formed. -/

namespace Sys2Proof.Laws.EncodesItsRow

/-- The instruction is well-formed, and its row of the opcode map is selected by its word. -/
def Statement (i : Instr) : Prop :=
  i.wf = true ∧ ∃ row ∈ opcodeMap, row.mnemonic = i.mnemonic ∧ row.format = i.format ∧ row.kind = i.kind ∧
    row.selects (encode i) = true

/-- The opcode and funct of a format R word are all that the mask of a format R row keeps. -/
theorem encodeR_and_mask (rs rt rd : RegIndex) (sh : Shamt) (f : BitVec 6) :
    encodeR rs rt rd sh f &&& 0xFC00003F = encodeR 0 0 0 0 f := by
  have h : (0#6 ++ rs ++ rt ++ rd ++ sh ++ f) &&& (0x3F#6 ++ 0#5 ++ 0#5 ++ 0#5 ++ 0#5 ++ 0x3F#6) =
      0#6 ++ 0#5 ++ 0#5 ++ 0#5 ++ 0#5 ++ f := by
    rw [BitVec.and_append, BitVec.and_append, BitVec.and_append, BitVec.and_append, BitVec.and_append,
      BitVec.and_zero, BitVec.and_zero, BitVec.and_zero, BitVec.and_zero, BitVec.zero_and,
      show (0x3F#6) = BitVec.allOnes 6 by decide, BitVec.and_allOnes]
  exact h

/-- The opcode of a format I word is all that the mask of a format I row keeps. -/
theorem encodeI_and_mask (op : BitVec 6) (rs rt : RegIndex) (imm : Imm) :
    encodeI op rs rt imm &&& 0xFC000000 = encodeI op 0 0 0 := by
  have h : (op ++ rs ++ rt ++ imm) &&& (0x3F#6 ++ 0#5 ++ 0#5 ++ 0#16) = op ++ 0#5 ++ 0#5 ++ 0#16 := by
    rw [BitVec.and_append, BitVec.and_append, BitVec.and_append,
      BitVec.and_zero, BitVec.and_zero, BitVec.and_zero,
      show (0x3F#6) = BitVec.allOnes 6 by decide, BitVec.and_allOnes]
  exact h

/-- The opcode of a format J word is all that the mask of the format J row keeps. -/
theorem encodeJ_and_mask (a : Addr) : encodeJ a &&& 0xFC000000 = encodeJ 0 := by
  have h : (2#6 ++ a) &&& (0x3F#6 ++ 0#26) = 2#6 ++ 0#26 := by
    rw [BitVec.and_append, BitVec.and_zero]
    rfl
  exact h

theorem add (rs rt rd : RegIndex) (sh : Shamt) : Statement (.add rs rt rd sh) :=
  ⟨rfl, ⟨.add, .r, .add, 0x20, 0xFC00003F⟩, by decide, rfl, rfl, rfl,
    beq_iff_eq.mpr ((encodeR_and_mask rs rt rd sh 32).trans (by decide))⟩
theorem addu (rs rt rd : RegIndex) (sh : Shamt) : Statement (.addu rs rt rd sh) :=
  ⟨rfl, ⟨.addu, .r, .add, 0x21, 0xFC00003F⟩, by decide, rfl, rfl, rfl,
    beq_iff_eq.mpr ((encodeR_and_mask rs rt rd sh 33).trans (by decide))⟩
theorem sub (rs rt rd : RegIndex) (sh : Shamt) : Statement (.sub rs rt rd sh) :=
  ⟨rfl, ⟨.sub, .r, .sub, 0x22, 0xFC00003F⟩, by decide, rfl, rfl, rfl,
    beq_iff_eq.mpr ((encodeR_and_mask rs rt rd sh 34).trans (by decide))⟩
theorem subu (rs rt rd : RegIndex) (sh : Shamt) : Statement (.subu rs rt rd sh) :=
  ⟨rfl, ⟨.subu, .r, .sub, 0x23, 0xFC00003F⟩, by decide, rfl, rfl, rfl,
    beq_iff_eq.mpr ((encodeR_and_mask rs rt rd sh 35).trans (by decide))⟩
theorem sll (rs rt rd : RegIndex) (sh : Shamt) : Statement (.sll rs rt rd sh) :=
  ⟨rfl, ⟨.sll, .r, .shift, 0, 0xFC00003F⟩, by decide, rfl, rfl, rfl,
    beq_iff_eq.mpr ((encodeR_and_mask rs rt rd sh 0).trans (by decide))⟩
theorem srl (rs rt rd : RegIndex) (sh : Shamt) : Statement (.srl rs rt rd sh) :=
  ⟨rfl, ⟨.srl, .r, .shift, 2, 0xFC00003F⟩, by decide, rfl, rfl, rfl,
    beq_iff_eq.mpr ((encodeR_and_mask rs rt rd sh 2).trans (by decide))⟩
theorem jr (rs rt rd : RegIndex) (sh : Shamt) : Statement (.jr rs rt rd sh) :=
  ⟨rfl, ⟨.jr, .r, .jump, 8, 0xFC00003F⟩, by decide, rfl, rfl, rfl,
    beq_iff_eq.mpr ((encodeR_and_mask rs rt rd sh 8).trans (by decide))⟩
theorem addi (rs rt : RegIndex) (imm : Imm) : Statement (.addi rs rt imm) :=
  ⟨rfl, ⟨.addi, .i, .add, 0x20000000, 0xFC000000⟩, by decide, rfl, rfl, rfl,
    beq_iff_eq.mpr ((encodeI_and_mask 8 rs rt imm).trans (by decide))⟩
theorem addiu (rs rt : RegIndex) (imm : Imm) : Statement (.addiu rs rt imm) :=
  ⟨rfl, ⟨.addiu, .i, .add, 0x24000000, 0xFC000000⟩, by decide, rfl, rfl, rfl,
    beq_iff_eq.mpr ((encodeI_and_mask 9 rs rt imm).trans (by decide))⟩
theorem beq (rs rt : RegIndex) (imm : Imm) : Statement (.beq rs rt imm) :=
  ⟨rfl, ⟨.beq, .i, .branch, 0x10000000, 0xFC000000⟩, by decide, rfl, rfl, rfl,
    beq_iff_eq.mpr ((encodeI_and_mask 4 rs rt imm).trans (by decide))⟩
theorem bne (rs rt : RegIndex) (imm : Imm) : Statement (.bne rs rt imm) :=
  ⟨rfl, ⟨.bne, .i, .branch, 0x14000000, 0xFC000000⟩, by decide, rfl, rfl, rfl,
    beq_iff_eq.mpr ((encodeI_and_mask 5 rs rt imm).trans (by decide))⟩
theorem j (addr : Addr) : Statement (.j addr) :=
  ⟨rfl, ⟨.j, .j, .jump, 0x08000000, 0xFC000000⟩, by decide, rfl, rfl, rfl,
    beq_iff_eq.mpr ((encodeJ_and_mask addr).trans (by decide))⟩

end Sys2Proof.Laws.EncodesItsRow
end

