-- ==== Sys2Proof/Laws/State.lean ====
section
/-! SUPPORT. One lemma per field per update of State, each true by rfl, so that no proof unfolds a record update. -/

namespace Sys2Proof.Machine

section
variable (s : State) (r : Record) (w : Word) (e : Error) (i : Nat) (o : Option Nat)

@[simp] theorem deliver_params : (deliver r s).params = s.params := rfl
@[simp] theorem deliver_buffer : (deliver r s).buffer = s.buffer := rfl
@[simp] theorem deliver_offset : (deliver r s).offset = s.offset := rfl
@[simp] theorem deliver_count : (deliver r s).count = s.count := rfl
@[simp] theorem deliver_label : (deliver r s).label = s.label := rfl
@[simp] theorem deliver_word : (deliver r s).word = some r.raw := rfl
@[simp] theorem deliver_records : (deliver r s).records = s.records ++ [r] := rfl
@[simp] theorem deliver_lines : (deliver r s).lines = s.lines := rfl
@[simp] theorem deliver_error : (deliver r s).error = s.error := rfl
@[simp] theorem deliver_undriven : (deliver r s).undriven = s.undriven := rfl

@[simp] theorem raise_params : (raise e i o s).params = s.params := rfl
@[simp] theorem raise_buffer : (raise e i o s).buffer = s.buffer := rfl
@[simp] theorem raise_offset : (raise e i o s).offset = s.offset := rfl
@[simp] theorem raise_count : (raise e i o s).count = s.count := rfl
@[simp] theorem raise_label : (raise e i o s).label = s.label := rfl
@[simp] theorem raise_word : (raise e i o s).word = s.word := rfl
@[simp] theorem raise_records : (raise e i o s).records = s.records := rfl
@[simp] theorem raise_lines : (raise e i o s).lines = [] := rfl
@[simp] theorem raise_error : (raise e i o s).error = some ⟨e, i, o⟩ := rfl
@[simp] theorem raise_undriven : (raise e i o s).undriven = s.undriven := rfl

@[simp] theorem drive_params : (s.drive w).params = s.params := rfl
@[simp] theorem drive_buffer : (s.drive w).buffer = s.buffer := rfl
@[simp] theorem drive_offset : (s.drive w).offset = s.offset := rfl
@[simp] theorem drive_count : (s.drive w).count = s.count := rfl
@[simp] theorem drive_label : (s.drive w).label = s.label := rfl
@[simp] theorem drive_word : (s.drive w).word = some w := rfl
@[simp] theorem drive_records : (s.drive w).records = s.records := rfl
@[simp] theorem drive_lines : (s.drive w).lines = s.lines := rfl
@[simp] theorem drive_error : (s.drive w).error = s.error := rfl
@[simp] theorem drive_undriven : (s.drive w).undriven = s.undriven := rfl

@[simp] theorem undrive_params : s.undrive.params = s.params := rfl
@[simp] theorem undrive_buffer : s.undrive.buffer = s.buffer := rfl
@[simp] theorem undrive_offset : s.undrive.offset = s.offset := rfl
@[simp] theorem undrive_count : s.undrive.count = s.count := rfl
@[simp] theorem undrive_label : s.undrive.label = s.label := rfl
@[simp] theorem undrive_word : s.undrive.word = none := rfl
@[simp] theorem undrive_records : s.undrive.records = s.records := rfl
@[simp] theorem undrive_lines : s.undrive.lines = s.lines := rfl
@[simp] theorem undrive_error : s.undrive.error = s.error := rfl
@[simp] theorem undrive_undriven : s.undrive.undriven = s.undriven + 1 := rfl

end

section
variable (s : State) (buf : Option Memory) (o n : Nat) (l : Option String) (rs : List Record) (t : String)

@[simp] theorem start_params : (s.start buf o n l).params = s.params := rfl
@[simp] theorem start_buffer : (s.start buf o n l).buffer = buf := rfl
@[simp] theorem start_offset : (s.start buf o n l).offset = o := rfl
@[simp] theorem start_count : (s.start buf o n l).count = n := rfl
@[simp] theorem start_label : (s.start buf o n l).label = l := rfl
@[simp] theorem start_word : (s.start buf o n l).word = s.word := rfl
@[simp] theorem start_records : (s.start buf o n l).records = [] := rfl
@[simp] theorem start_lines : (s.start buf o n l).lines = [] := rfl
@[simp] theorem start_error : (s.start buf o n l).error = none := rfl
@[simp] theorem start_undriven : (s.start buf o n l).undriven = s.undriven := rfl

@[simp] theorem startRender_params : (s.startRender rs t).params = s.params := rfl
@[simp] theorem startRender_buffer : (s.startRender rs t).buffer = none := rfl
@[simp] theorem startRender_offset : (s.startRender rs t).offset = 0 := rfl
@[simp] theorem startRender_count : (s.startRender rs t).count = rs.length := rfl
@[simp] theorem startRender_label : (s.startRender rs t).label = some t := rfl
@[simp] theorem startRender_word : (s.startRender rs t).word = s.word := rfl
@[simp] theorem startRender_records : (s.startRender rs t).records = rs := rfl
@[simp] theorem startRender_lines : (s.startRender rs t).lines = [] := rfl
@[simp] theorem startRender_error : (s.startRender rs t).error = none := rfl
@[simp] theorem startRender_undriven : (s.startRender rs t).undriven = s.undriven := rfl

end

/-- A word of the run is still to be decoded exactly when no error stands and records are missing. -/
theorem phase_decoding_iff (s : State) :
    s.phase = .decoding ↔ s.error = none ∧ s.records.length < s.count := by
  unfold State.phase
  split
  · simp_all [Option.isSome_iff_ne_none]
  · split <;> simp_all [Option.isSome_iff_ne_none]
    split <;> simp <;> omega

/-- A record is still to be rendered exactly when all words are decoded, no error stands, a label was given and
lines are missing. -/
theorem phase_rendering_iff (s : State) :
    s.phase = .rendering ↔ s.error = none ∧ s.count ≤ s.records.length ∧ s.label ≠ none ∧
      s.lines.length < s.records.length := by
  unfold State.phase
  split
  · simp_all [Option.isSome_iff_ne_none]
  · split
    · simp_all [Option.isSome_iff_ne_none]
    · split <;> simp_all [Option.isSome_iff_ne_none]

end Sys2Proof.Machine
end

