-- ==== Sys2Proof/Laws/Step.lean ====
section
/-! SUPPORT. What each shared operation can do, said once: `exec`, `fetch`, `renderNext`, `step`. -/

namespace Sys2Proof.Machine

/-- Executing an instruction delivers its record, and that is all. -/
theorem exec_eq_deliver (i : Instr) (s : State) : exec i s = .next (deliver i.record s) := by
  cases i <;> rfl

/-- `fetch` answers the instruction of the word read, or a state in which the error of the read or of the decode has
been raised. -/
theorem fetch_cases (s : State) :
    (∃ w i, readWord s.params s.buffer (s.wordOffset s.records.length) = .ok w ∧ decodeInstr w = .ok i ∧
      fetch s = .ok i) ∨
    (∃ e, readWord s.params s.buffer (s.wordOffset s.records.length) = .error e ∧
      fetch s = .error (raise e s.records.length (some (s.wordOffset s.records.length)) s.undrive)) ∨
    (∃ w e, readWord s.params s.buffer (s.wordOffset s.records.length) = .ok w ∧ decodeInstr w = .error e ∧
      fetch s = .error (raise e s.records.length (some (s.wordOffset s.records.length)) (s.drive w))) := by
  cases hr : readWord s.params s.buffer (s.wordOffset s.records.length) with
  | error e => exact .inr (.inl ⟨e, rfl, by simp [fetch, hr]⟩)
  | ok w =>
    cases hd : decodeInstr w with
    | error e => exact .inr (.inr ⟨w, e, rfl, hd, by simp [fetch, hr, hd]⟩)
    | ok i => exact .inl ⟨w, i, rfl, hd, by simp [fetch, hr, hd]⟩

/-- While records are left to render, `renderNext` adds the line of the next one or raises its error. -/
theorem renderNext_cases (s : State) (h : s.lines.length < s.records.length) :
    (∃ l, render s.params s.records[s.lines.length] = .ok l ∧
      renderNext s = { s with lines := s.lines ++ [l] }) ∨
    (∃ e, render s.params s.records[s.lines.length] = .error e ∧
      renderNext s = raise e s.lines.length (s.renderOffset s.lines.length) s) := by
  cases hr : render s.params s.records[s.lines.length] with
  | ok l => exact .inl ⟨l, rfl, by simp [renderNext, h, hr]⟩
  | error e => exact .inr ⟨e, rfl, by simp [renderNext, h, hr]⟩

/-- Everything a step can do: deliver a record, raise a read error, raise a decode error, add a line, raise a render
error, or stop because the run has ended. -/
theorem step_cases (s : State) :
    (∃ w i, s.phase = .decoding ∧ readWord s.params s.buffer (s.wordOffset s.records.length) = .ok w ∧
      decodeInstr w = .ok i ∧ step s = .next (deliver i.record s)) ∨
    (∃ e, s.phase = .decoding ∧ readWord s.params s.buffer (s.wordOffset s.records.length) = .error e ∧
      step s = .next (raise e s.records.length (some (s.wordOffset s.records.length)) s.undrive)) ∨
    (∃ w e, s.phase = .decoding ∧ readWord s.params s.buffer (s.wordOffset s.records.length) = .ok w ∧
      decodeInstr w = .error e ∧
      step s = .next (raise e s.records.length (some (s.wordOffset s.records.length)) (s.drive w))) ∨
    (∃ r l, s.phase = .rendering ∧ s.records[s.lines.length]? = some r ∧ render s.params r = .ok l ∧
      step s = .next { s with lines := s.lines ++ [l] }) ∨
    (∃ r e, s.phase = .rendering ∧ s.records[s.lines.length]? = some r ∧ render s.params r = .error e ∧
      step s = .next (raise e s.lines.length (s.renderOffset s.lines.length) s)) ∨
    (s.phase = .ended ∧ step s = .fault .runEnded) := by
  cases hp : s.phase with
  | decoding =>
    rcases fetch_cases s with ⟨w, i, hr, hd, hf⟩ | ⟨e, hr, hf⟩ | ⟨w, e, hr, hd, hf⟩
    · exact .inl ⟨w, i, rfl, hr, hd, by simp [step, hp, hf, exec_eq_deliver]⟩
    · exact .inr (.inl ⟨e, rfl, hr, by simp [step, hp, hf]⟩)
    · exact .inr (.inr (.inl ⟨w, e, rfl, hr, hd, by simp [step, hp, hf]⟩))
  | rendering =>
    have hlt := ((phase_rendering_iff s).mp hp).2.2.2
    rcases renderNext_cases s hlt with ⟨l, hr, hn⟩ | ⟨e, hr, hn⟩
    · exact .inr (.inr (.inr (.inl ⟨_, l, rfl, List.getElem?_eq_getElem hlt, hr, by simp [step, hp, hn]⟩)))
    · exact .inr (.inr (.inr (.inr (.inl ⟨_, e, rfl, List.getElem?_eq_getElem hlt, hr, by simp [step, hp, hn]⟩))))
  | ended => exact .inr (.inr (.inr (.inr (.inr ⟨rfl, by simp [step, hp]⟩))))

/-! ## Runs -/

/-- A run of `k + 1` steps is one step and then a run of `k`, for any machine. -/
theorem run_succ_any (M : Host.Core) (k : Nat) (s t : M.State) :
    M.run (k + 1) s = .next t ↔ ∃ u, M.step s = .next u ∧ M.run k u = .next t := by
  rw [Host.Core.run]
  cases M.step s with
  | next u => simp
  | fault r => simp
  | refused r => simp

/-- A run of `k + 1` steps of this machine that reaches a state is one step and then a run of `k`. -/
theorem run_succ_iff (k : Nat) (s t : State) :
    Host.Core.run Sys2Proof.core (k + 1) s = .next t ↔
      ∃ u, step s = .next u ∧ Host.Core.run Sys2Proof.core k u = .next t :=
  run_succ_any Sys2Proof.core k s t

end Sys2Proof.Machine
end

