-- ==== Sys2Proof/Tests/Slice0.lean ====
section
/-! SUPPORT. Tests: expected results from 95_test_vectors.md (the table or program is named), and for every obligation
with hypotheses a witness: concrete values that meet them, at the boundaries of each clause. -/

namespace Sys2Proof.Tests

open Sys2Proof Sys2Proof.Machine

/-! ## Helpers -/

/-- The next state of an outcome, if it is one. -/
def nextOf (o : Host.Outcome State Fault Refusal) : Option State :=
  match o with
  | .next s => some s
  | .fault _ | .refused _ => none

/-- The state at a call over a buffer of the given bytes. -/
def call (bs : List Byte) (offset count : Nat) (label : Option String) : State :=
  State.reset.start (some (Memory.ofBytes bs)) offset count label

/-- The result after `k` steps, if the run has ended by then. -/
def resultAfter (k : Nat) (s : State) : Option RunResult :=
  (nextOf (Host.Core.run Sys2Proof.core k s)).bind State.result

/-- Decode a word and render its record by default: format, kind and line, or the error. -/
def line (w : Word) : Except Error (Format × Kind × String) :=
  match decode w with
  | .error e => .error e
  | .ok r =>
    match render Params.default r with
    | .error e => .error e
    | .ok t => .ok (r.format, r.kind, t)

/-! ## Well-formedness smoke: each check refuses an ill-formed term -/

/-- A record whose format does not agree with its word (V7's hand-made record). -/
theorem test_wf_refuses_record_of_wrong_format :
    Record.wf ⟨0x01095020, .i, .shift, "x"⟩ = false ∧ Record.wf ⟨0x01095020, .r, .unknown, ""⟩ = false ∧
    Record.wf ⟨0x01095020, .r, .add, "addu"⟩ = false ∧ Record.wf ⟨0x01095024, .r, .add, "add"⟩ = false ∧
    Record.wf ⟨0x01095020, .r, .add, "add"⟩ = true := by decide

/-- Buffers with a gap, out of order, with a repeat or not starting at 0. -/
theorem test_wf_refuses_memory_not_contiguous :
    Memory.wf [(0, 1), (2, 1)] = false ∧ Memory.wf [(1, 1), (0, 1)] = false ∧ Memory.wf [(0, 1), (0, 1)] = false ∧
    Memory.wf [(1, 1)] = false ∧ Memory.wf [(0, 1), (1, 1)] = true := by decide

/-! ## Decoding: V1 and V2, words written out from the layouts -/

theorem test_add_decodes :
    decodeInstr 0x00000020 = .ok (.add 0 0 0 0) ∧ decodeInstr 0x01095020 = .ok (.add 8 9 10 0) ∧
    decodeInstr 0x012A5D60 = .ok (.add 9 10 11 21) ∧
    decodeInstr 0b00000001001010100101110101100000#32 = .ok (.add 9 10 11 21) := by decide

theorem test_addu_decodes :
    decodeInstr 0x00000021 = .ok (.addu 0 0 0 0) ∧ decodeInstr 0x01095021 = .ok (.addu 8 9 10 0) ∧
    decodeInstr 0x03FFFFE1 = .ok (.addu 31 31 31 31) := by decide

theorem test_sub_decodes :
    decodeInstr 0x00000022 = .ok (.sub 0 0 0 0) ∧ decodeInstr 0x016C6822 = .ok (.sub 11 12 13 0) := by decide

theorem test_subu_decodes :
    decodeInstr 0x00000023 = .ok (.subu 0 0 0 0) ∧ decodeInstr 0x03190823 = .ok (.subu 24 25 1 0) ∧
    decodeInstr 0x01014023 = .ok (.subu 8 1 8 0) := by decide

theorem test_sll_decodes :
    decodeInstr 0x00000000 = .ok (.sll 0 0 0 0) ∧ decodeInstr 0x00084900 = .ok (.sll 0 8 9 4) := by decide

theorem test_srl_decodes :
    decodeInstr 0x00000002 = .ok (.srl 0 0 0 0) ∧ decodeInstr 0x00084FC2 = .ok (.srl 0 8 9 31) := by decide

theorem test_jr_decodes :
    decodeInstr 0x00000008 = .ok (.jr 0 0 0 0) ∧ decodeInstr 0x00200008 = .ok (.jr 1 0 0 0) ∧
    decodeInstr 0x03E00008 = .ok (.jr 31 0 0 0) := by decide

theorem test_addi_decodes :
    decodeInstr 0x20000000 = .ok (.addi 0 0 0) ∧ decodeInstr 0x21097FFF = .ok (.addi 8 9 0x7FFF) ∧
    decodeInstr 0x2008FFFF = .ok (.addi 0 8 0xFFFF) := by decide

theorem test_addiu_decodes :
    decodeInstr 0x24000000 = .ok (.addiu 0 0 0) ∧ decodeInstr 0x25098000 = .ok (.addiu 8 9 0x8000) ∧
    decodeInstr 0x2408000A = .ok (.addiu 0 8 0x000A) := by decide

theorem test_beq_decodes :
    decodeInstr 0x10000000 = .ok (.beq 0 0 0) ∧ decodeInstr 0x11090003 = .ok (.beq 8 9 3) := by decide

theorem test_bne_decodes :
    decodeInstr 0x14000000 = .ok (.bne 0 0 0) ∧ decodeInstr 0x1540FFFC = .ok (.bne 10 0 0xFFFC) ∧
    decodeInstr 0x1500FFFD = .ok (.bne 8 0 0xFFFD) := by decide

theorem test_j_decodes :
    decodeInstr 0x08000000 = .ok (.j 0) ∧ decodeInstr 0x08000064 = .ok (.j 0x64) ∧
    decodeInstr 0x0BFFFFFF = .ok (.j 0x3FFFFFF) := by decide

/-- V4, the words that report UnrecognizedFormat. -/
theorem test_bad_opcodes :
    [0xFFFFFFFF#32, 0x04000000, 0x0C000000, 0x18000000, 0x1C000000, 0x28000000, 0x3C080001, 0x35080001,
      0x8D090004, 0xAD090004, 0xFC000000, 0xDEADBEEF].all
      (fun w => decide (decode w = .error (.unrecognizedFormat w))) = true := by decide

/-- V4, the words that report UnsupportedFunct. -/
theorem test_bad_functs :
    [0x00000001#32, 0x01095003, 0x00000009, 0x0000001F, 0x01095024, 0x0109502A, 0x0000003F].all
      (fun w => decide (decode w = .error (.unsupportedFunct w))) = true := by decide

/-- The bytes of a table word (V1), and what follows the first four is handed back. -/
theorem test_table_words_and_bytes :
    decodeTableWord 32 0x20000000 = some (.addi 0 0 0) ∧ decodeTableWord 32 0x00000020 = some (.add 0 0 0 0) ∧
    decodeTableWord 32 0x04000000 = none ∧
    decodeBytes [0x21, 0x09, 0x7F, 0xFF, 0x08] = .ok (.addi 8 9 0x7FFF, [0x08]) ∧
    decodeBytes [0x21, 0x09, 0x7F] = .error (.outOfBounds 0 3) := by decide

/-! ## Rendering: V1, V2, V7, rendered lines -/

theorem test_format_r_lines :
    line 0x012A5D60 = .ok (.r, .add, "add $t1, $t2, $t3") ∧
    line 0x03FFFFE1 = .error (.unsupportedRegister 31) ∧
    line 0x016C6822 = .ok (.r, .sub, "sub $t3, $t4, $t5") ∧
    line 0x01014023 = .ok (.r, .sub, "subu $t0, $at, $t0") ∧
    line 0x00084900 = .ok (.r, .shift, "sll $zero, $t0, 4") ∧
    line 0x00084FC2 = .ok (.r, .shift, "srl $zero, $t0, 31") ∧
    line 0x03200008 = .ok (.r, .jump, "jr $t9") := by decide

theorem test_format_i_and_j_lines :
    line 0x2008FFFF = .ok (.i, .add, "addi $zero, $t0, ffff") ∧
    line 0x25098000 = .ok (.i, .add, "addiu $t0, $t1, 8000") ∧
    line 0x11090003 = .ok (.i, .branch, "beq $t1, $t0, 3") ∧
    line 0x1540FFFC = .ok (.i, .branch, "bne $zero, $t2, fffc") ∧
    line 0x0BFFFFFF = .ok (.j, .jump, "j 3ffffff") := by decide

/-- V7: the first unnamed operand, the operand that is not looked up, the pairs without a template. -/
theorem test_disassembler_corners :
    line 0x00221820 = .error (.unsupportedRegister 2) ∧
    line 0x00081100 = .ok (.r, .shift, "sll $zero, $t0, 4") ∧
    line 0x00221008 = .ok (.r, .jump, "jr $at") ∧
    render Params.default ⟨0x01095020, .i, .shift, "x"⟩ = .error (.unhandledTemplate .i .shift) ∧
    render Params.default ⟨0x01095020, .r, .unknown, ""⟩ = .error (.unhandledTemplate .r .unknown) ∧
    renderAll Params.default [] "text" = .ok "section \"text\":\n" := by decide

/-- V7, the last row: the records of three words, the third of which has a register without a name. -/
theorem test_render_all_first_failure :
    renderAll Params.default
      [⟨0x01095020, .r, .add, "add"⟩, ⟨0x08000040, .j, .jump, "j"⟩, ⟨0x03E00008, .r, .jump, "jr"⟩] "t" =
      .error (.unsupportedRegister 31, 2) := by decide

/-- Twenty names for REGNAME_EXT, the first and the last of each group told apart. -/
def extNames : Vector String 20 :=
  #v["r2", "r3", "r4", "r5", "r6", "r7", "r16", "r17", "r18", "r19", "r20", "r21", "r22", "r23", "r26", "r27",
    "r28", "r29", "r30", "r31"]

/-- D14: with REGNAME_EXT the caller's names stand at their indices, and the names of R97 stay. -/
theorem test_regname_ext :
    (∀ i ∈ [2#5, 7, 16, 23, 26, 31], regName ⟨none, some extNames⟩ i =
      some ("r" ++ renderDec i.toNat) ∧ regName Params.default i = none) ∧
    regName ⟨none, some extNames⟩ 0 = some "zero" ∧ regName ⟨none, some extNames⟩ 25 = some "t9" := by decide

/-! ## WordReader: V5 -/

theorem test_read_word :
    readWord Params.default (some (Memory.ofBytes [0x12, 0x34, 0x56, 0x78])) 0 = .ok 0x12345678 ∧
    readWord Params.default (some (Memory.ofBytes [1, 2, 3, 4, 5, 6, 7, 8])) 4 = .ok 0x05060708 ∧
    readWord Params.default (some (Memory.ofBytes [1, 2, 3, 4, 5, 6, 7, 8])) 8 = .error (.outOfBounds 8 8) ∧
    readWord Params.default (some (Memory.ofBytes [1, 2, 3, 4, 5, 6, 7, 8])) 5 =
      .error (.invalidArgument (.misaligned 5)) ∧
    readWord Params.default (some (Memory.ofBytes [0, 0, 0])) 0 = .error (.outOfBounds 0 3) ∧
    readWord Params.default (some (Memory.ofBytes [0, 0, 0])) 2 = .error (.invalidArgument (.misaligned 2)) ∧
    readWord Params.default (some (Memory.ofBytes [])) 0 = .error (.outOfBounds 0 0) ∧
    readWord Params.default none 0 = .error (.invalidArgument .absentBuffer) := by decide

/-! ## Ports: V6 -/

theorem test_ports_of_good_words :
    portsOf 0x01095020 = ⟨0x01095020, 1, 0, 0, 0, 0, 0, 8, 9, 10, 0, 32, 0x5020, 0x1095020⟩ ∧
    portsOf 0x00084FC2 = ⟨0x00084FC2, 1, 0, 0, 2, 5, 0, 0, 8, 9, 31, 2, 0x4FC2, 0x0084FC2⟩ ∧
    portsOf 0x1540FFFC = ⟨0x1540FFFC, 1, 0, 1, 4, 10, 5, 10, 0, 31, 31, 60, 0xFFFC, 0x140FFFC⟩ ∧
    portsOf 0x25098000 = ⟨0x25098000, 1, 0, 1, 0, 8, 9, 8, 9, 16, 0, 0, 0x8000, 0x1098000⟩ ∧
    portsOf 0x08000064 = ⟨0x08000064, 1, 0, 2, 3, 11, 2, 0, 0, 0, 1, 36, 0x0064, 0x0000064⟩ := by decide

theorem test_ports_of_bad_words :
    portsOf 0xFFFFFFFF = ⟨0xFFFFFFFF, 0, 3, 3, 5, 15, 63, 31, 31, 31, 31, 63, 0xFFFF, 0x3FFFFFF⟩ ∧
    portsOf 0x0109502A = ⟨0x0109502A, 0, 4, 0, 5, 15, 0, 8, 9, 10, 0, 42, 0x502A, 0x109502A⟩ ∧
    portsOf 0x8D090004 = ⟨0x8D090004, 0, 3, 3, 5, 15, 35, 8, 9, 0, 0, 4, 0x0004, 0x1090004⟩ := by decide

/-! ## Steps -/

/-- The very next step runs the word placed by `withFetchWord`: its record is delivered, nothing else changes. -/
theorem test_step_runs_the_fetch_word :
    ((nextOf (step (State.reset.withFetchWord 32 0x1540FFFC))).map fun t => (t.records, t.word, t.result)) =
      some ([⟨0x1540FFFC, .i, .branch, "bne"⟩], some 0x1540FFFC,
        some (.records [⟨0x1540FFFC, .i, .branch, "bne"⟩])) := by decide

/-- P2, from the middle of the run: one step reads the word at offset 8 + 4 * 3. -/
theorem test_step_reads_at_the_index :
    ((nextOf (step { call [0xde, 0xad, 0xbe, 0xef, 0xff, 0xff, 0xff, 0xff, 0x24, 0x08, 0x00, 0x0a,
        0x00, 0x08, 0x48, 0x80] 8 2 (some "loop") with records := [⟨0x2408000A, .i, .add, "addiu"⟩] })).map
      fun t => t.records) =
      some [⟨0x2408000A, .i, .add, "addiu"⟩, ⟨0x00084880, .r, .shift, "sll"⟩] := by decide

/-- P3: the word that does not decode ends the run; its index, its byte offset, its outputs. -/
theorem test_step_raises_the_decode_error :
    ((nextOf (step { call [0x01, 0x09, 0x50, 0x20, 0x8d, 0x09, 0x00, 0x04, 0x08, 0x00, 0x00, 0x40] 0 3 (some "bad") with
        records := [⟨0x01095020, .r, .add, "add"⟩] })).map
      fun t => (t.result, t.outputs.ok, t.outputs.err)) =
      some (some (.failed ⟨.unrecognizedFormat 0x8D090004, 1, some 4⟩), 0, 3) := by decide

/-- P1 with count 1 and P6 with the last read: a line is rendered; a short buffer ends the run. -/
theorem test_step_renders_and_reports_short_buffer :
    ((nextOf (step { call [0x20, 0x08, 0x00, 0x05] 0 1 (some "text") with
        records := [⟨0x20080005, .i, .add, "addi"⟩] })).map State.result) =
      some (some (.text "section \"text\":\naddi $zero, $t0, 5\n")) ∧
    ((nextOf (step { call [0x20, 0x08, 0x00, 0x05, 0x20, 0x09, 0x00, 0x07, 0x01, 0x09] 0 3 (some "t") with
        records := [⟨0x20080005, .i, .add, "addi"⟩, ⟨0x20090007, .i, .add, "addi"⟩] })).map State.result) =
      some (some (.failed ⟨.outOfBounds 8 10, 2, some 8⟩)) := by decide

/-- P1 as the spec's function gives it, whole. -/
theorem test_program_p1 :
    disassemble Params.default (some (Memory.ofBytes
      [0x20, 0x08, 0x00, 0x05, 0x20, 0x09, 0x00, 0x07, 0x01, 0x09, 0x50, 0x20])) 0 3 "text" =
    .ok "section \"text\":\naddi $zero, $t0, 5\naddi $zero, $t1, 7\nadd $t0, $t1, $t2\n" := by decide

/-- P4: every word decodes, rendering fails at index 2. -/
theorem test_program_p4 :
    disassemble Params.default (some (Memory.ofBytes
      [0x01, 0x09, 0x50, 0x20, 0x08, 0x00, 0x00, 0x40, 0x03, 0xe0, 0x00, 0x08])) 0 3 "t" =
    .error ⟨.unsupportedRegister 31, 2, some 8⟩ := by decide

/-! ## Witnesses -/

/-- Opcodes at each clause's boundary. -/
theorem witness_FormatIsFunctionOfOpcode :
    (0x03FFFFFF#32).toNat / 2 ^ 26 = 0 ∧ (0x08000000#32).toNat / 2 ^ 26 = 2 ∧
    (0x10000000#32).toNat / 2 ^ 26 ∈ [4, 5, 8, 9] ∧ (0x27FFFFFF#32).toNat / 2 ^ 26 ∈ [4, 5, 8, 9] ∧
    (0x04000000#32).toNat / 2 ^ 26 ∉ [0, 2, 4, 5, 8, 9] ∧ (0xFFFFFFFF#32).toNat / 2 ^ 26 ∉ [0, 2, 4, 5, 8, 9] ∧
    (0x08000000#32).toNat / 2 ^ 26 = (0x0BFFFFFF#32).toNat / 2 ^ 26 := by decide

theorem witness_OperationTablesResolveKindAndMnemonic :
    (∀ f ∈ [0#6, 2, 8, 32, 33, 34, 35, 1, 36, 63], classify (f.setWidth 32) = .r ∧ functOf (f.setWidth 32) = f) ∧
    1#6 ∉ [0#6, 2, 8, 32, 33, 34, 35] ∧ classify 0x10000000 = .i ∧ classify 0x27FFFFFF = .i ∧
    classify 0x08000000 = .j := by decide

theorem witness_OpcodeMapRowsAreDisjoint :
    (∀ a ∈ opcodeMap, a.matchBits &&& a.mask = a.matchBits) ∧
    (∀ row ∈ opcodeMap, 0x04000000#32 &&& row.mask ≠ row.matchBits) ∧
    (∀ row ∈ opcodeMap, 0x0000003F#32 &&& row.mask ≠ row.matchBits) := by decide

/-- Every row has a matching word with its free bits zero and one with its free bits one; this also meets the
hypotheses of the statements about the words of one family. -/
theorem witness_EveryMatchingWordDecodesToItsRow :
    ∀ row ∈ opcodeMap, row.matchBits &&& row.mask = row.matchBits ∧
      (row.matchBits ||| ~~~ row.mask) &&& row.mask = row.matchBits := by decide

/-- V3: one field changed, for each field that is not a selector. -/
theorem witness_ChangingOneFieldChangesOnlyThatField :
    (∀ x ∈ [(FieldName.rs, 0x01E95020#32), (.rt, 0x01005020), (.rd, 0x0109C820), (.shamt, 0x01095460)],
      decode 0x01095020 = .ok ⟨0x01095020, .r, .add, "add"⟩ ∧ decode x.2 = .ok ⟨x.2, .r, .add, "add"⟩ ∧
      hasField .r x.1 = true ∧ 0x01095020#32 &&& ~~~ fieldMask x.1 = x.2 &&& ~~~ fieldMask x.1) ∧
    (∀ x ∈ [(FieldName.rs, 0x23091234#32), (.rt, 0x21011234), (.imm, 0x2109ABCD)],
      decode 0x21091234 = .ok ⟨0x21091234, .i, .add, "addi"⟩ ∧ decode x.2 = .ok ⟨x.2, .i, .add, "addi"⟩ ∧
      hasField .i x.1 = true ∧ 0x21091234#32 &&& ~~~ fieldMask x.1 = x.2 &&& ~~~ fieldMask x.1) ∧
    (decode 0x08000064 = .ok ⟨0x08000064, .j, .jump, "j"⟩ ∧ decode 0x0BFFFFFF = .ok ⟨0x0BFFFFFF, .j, .jump, "j"⟩ ∧
      hasField .j .addr = true ∧ 0x08000064#32 &&& ~~~ fieldMask .addr = 0x0BFFFFFF &&& ~~~ fieldMask .addr) := by
  decide

theorem witness_DecodeOfEncodeIsTheInstruction :
    (Instr.add 31 31 31 31).wf = true ∧ (Instr.addi 0 8 0xFFFF).wf = true ∧ (Instr.j 0x3FFFFFF).wf = true := by decide

theorem witness_EncodeOfDecodeIsTheWord :
    decodeInstr 0x03FFFFE1 = .ok (.addu 31 31 31 31) ∧ decodeInstr 0x1540FFFC = .ok (.bne 10 0 0xFFFC) ∧
    decodeInstr 0x0BFFFFFF = .ok (.j 0x3FFFFFF) := by decide

/-- Also the hypotheses of `DecodedRecordsHaveATemplate`: a decoded record, and one whose rendering fails. -/
theorem witness_RecordInvariants :
    decode 0x01095020 = .ok ⟨0x01095020, .r, .add, "add"⟩ ∧ decode 0x012A5D60 = .ok ⟨0x012A5D60, .r, .add, "add"⟩ ∧
    opcodeOf 0x01095020 = opcodeOf 0x012A5D60 ∧ functOf 0x01095020 = functOf 0x012A5D60 ∧
    decode 0x03E00008 = .ok ⟨0x03E00008, .r, .jump, "jr"⟩ ∧
    render Params.default ⟨0x03E00008, .r, .jump, "jr"⟩ = .error (.unsupportedRegister 31) := by decide

/-- A word for every row of the statements about the words of one family: `AddSubWordsDecodeAndRender`,
`ShiftWordsDecodeAndRender`, `JumpRegisterWordsDecodeAndRender`, `AddImmediateWordsDecodeAndRender`,
`BranchWordsDecodeAndRender`, `JumpWordsDecodeAndRender`. -/
theorem witness_WordsOfEachFamily :
    0x01095020#32 &&& 0xFC00003F = 0x20 ∧ 0x03FFFFE1#32 &&& 0xFC00003F = 0x21 ∧ 0x016C6822#32 &&& 0xFC00003F = 0x22 ∧
    0x03190823#32 &&& 0xFC00003F = 0x23 ∧ 0x00084900#32 &&& 0xFC00003F = 0 ∧ 0x00084FC2#32 &&& 0xFC00003F = 2 ∧
    0x03E00008#32 &&& 0xFC00003F = 8 ∧ 0x2008FFFF#32 &&& 0xFC000000 = 0x20000000 ∧
    0x25098000#32 &&& 0xFC000000 = 0x24000000 ∧ 0x11090003#32 &&& 0xFC000000 = 0x10000000 ∧
    0x1540FFFC#32 &&& 0xFC000000 = 0x14000000 ∧ 0x0BFFFFFF#32 &&& 0xFC000000 = 0x08000000 := by decide

theorem witness_PortsCarryTheRecord :
    (State.reset.drive 0x1540FFFC).word = some 0x1540FFFC ∧
    ((call [] 0 0 none).drive 0x1540FFFC).word = some 0x1540FFFC ∧
    decode 0x1540FFFC = .ok ⟨0x1540FFFC, .i, .branch, "bne"⟩ ∧
    decode 0x0109502A = .error (.unsupportedFunct 0x0109502A) ∧
    decode 0x8D090004 = .error (.unrecognizedFormat 0x8D090004) ∧
    readWord Params.default none 0 = .error (.invalidArgument .absentBuffer) ∧
    render Params.default ⟨0x03E00008, .r, .jump, "jr"⟩ = .error (.unsupportedRegister 31) ∧
    render Params.default ⟨0x01095020, .i, .shift, "x"⟩ = .error (.unhandledTemplate .i .shift) := by decide

theorem witness_PortsOnFailedDecode :
    (0xFFFFFFFF#32).extractLsb' 26 6 ∉ [0#6, 2, 4, 5, 8, 9] ∧ (0x04000000#32).extractLsb' 26 6 ∉ [0#6, 2, 4, 5, 8, 9] ∧
    (0x0109502A#32).extractLsb' 26 6 = 0 ∧ (0x0109502A#32).extractLsb' 0 6 ∉ [0#6, 2, 8, 32, 33, 34, 35] ∧
    (portsOf 0x0109502A).ok = 0 := by decide

/-- V5 at the boundaries: exactly four bytes, three bytes, one byte past alignment. -/
theorem witness_ReadWordChecksInOrder :
    Params.default.offsetBits = none ∧ (Memory.ofBytes [0x12, 0x34, 0x56, 0x78]).wf = true ∧ 0 % 4 = 0 ∧
    0 + 4 ≤ (Memory.ofBytes [0x12, 0x34, 0x56, 0x78]).length ∧ (Memory.ofBytes [0, 0, 0]).wf = true ∧
    (Memory.ofBytes [0, 0, 0]).length < 0 + 4 ∧ 5 % 4 ≠ 0 := by decide

theorem witness_WordsAreBigEndian :
    let m := Memory.ofBytes [1, 2, 3, 4, 0x12, 0x34, 0x56, 0x78]
    m.read 4 = some 0x12 ∧ m.read 5 = some 0x34 ∧ m.read 6 = some 0x56 ∧ m.read 7 = some 0x78 ∧
    readWord Params.default (some m) 4 = .ok 0x12345678 := by decide

theorem witness_ReadWordSeesOnlyItsFourBytes :
    (3 < 4 ∨ 4 + 4 ≤ 3) ∧ (8 < 4 ∨ 4 + 4 ≤ 8) ∧
    readWord Params.default (some (Memory.ofBytes [1, 2, 3, 4, 5, 6, 7, 8])) 4 = .ok 0x05060708 ∧
    readWord Params.default (some ((Memory.ofBytes [1, 2, 3, 4, 5, 6, 7, 8]).write 7 0xAA)) 4 = .ok 0x050607AA ∧
    readWord Params.default (some ((Memory.ofBytes [1, 2, 3, 4, 5, 6, 7, 8]).write 4 0xAA)) 4 = .ok 0xAA060708 := by
  decide

/-- OFFSET_BITS 4: the largest readable aligned offset is 8; offset 12 is within 4 of the maximum 15; 13 is misaligned;
an absent buffer is reported first. -/
theorem witness_FixedOffsetWidthRejectsAtItsMaximum :
    12 % 4 = 0 ∧ 2 ^ 4 ≤ 12 + 4 ∧ 8 + 4 < 2 ^ 4 ∧ 13 % 4 ≠ 0 ∧
    readWord ⟨some 4, none⟩ (some (Memory.ofBytes (List.replicate 16 1))) 12 = .error (.outOfBounds 12 16) ∧
    readWord ⟨some 4, none⟩ (some (Memory.ofBytes (List.replicate 16 1))) 8 = .ok 0x01010101 ∧
    readWord ⟨some 4, none⟩ (some (Memory.ofBytes (List.replicate 16 1))) 13 =
      .error (.invalidArgument (.misaligned 13)) ∧
    readWord ⟨some 4, none⟩ none 12 = .error (.invalidArgument .absentBuffer) := by decide

theorem witness_RegisterNameExtension :
    regName Params.default 25 = some "t9" ∧ 2 ≤ (2#5).toNat ∧ (7#5).toNat ≤ 7 ∧ 16 ≤ (16#5).toNat ∧
    (23#5).toNat ≤ 23 ∧ 26 ≤ (26#5).toNat ∧ 26 ≤ (31#5).toNat := by decide

theorem witness_HexadecimalSpelling : 0x3FFFFFF < 2 ^ 26 ∧ renderHex 0x3FFFFFF = "3ffffff" ∧ renderHex 0 = "0" := by
  decide

/-- A run of each outcome of the staged path and of the sequence decode (P5, S2); the second and third parts meet the
hypotheses of `RenderAllReportsTheFirstFailure` too. -/
theorem witness_WholePathIsStaged :
    decodeAll Params.default (some (Memory.ofBytes [0, 0x22, 0x18, 0x20, 0, 0, 0, 0x3f])) 0 2 =
      .error ⟨.unsupportedFunct 0x3F, 1, some 4⟩ ∧
    decodeAll Params.default (some (Memory.ofBytes [0, 0x22, 0x18, 0x20])) 0 1 =
      .ok [⟨0x00221820, .r, .add, "add"⟩] ∧
    renderAll Params.default [⟨0x00221820, .r, .add, "add"⟩] "t" = .error (.unsupportedRegister 2, 0) ∧
    decodeAll Params.default (some (Memory.ofBytes [0x08, 0, 0, 0x64])) 0 1 = .ok [⟨0x08000064, .j, .jump, "j"⟩] ∧
    renderAll Params.default [⟨0x08000064, .j, .jump, "j"⟩] "t" = .ok "section \"t\":\nj 64\n" := by decide

/-- The second word of a buffer, offset and length at the boundary of the bounds check. -/
theorem witness_StepExecutesTheDecodedInstruction :
    let m := Memory.ofBytes [0x20, 0x08, 0x00, 0x05, 0x08, 0x00, 0x00, 0x64]
    let s : State := { call [0x20, 0x08, 0x00, 0x05, 0x08, 0x00, 0x00, 0x64] 0 2 none with
      records := [⟨0x20080005, .i, .add, "addi"⟩] }
    s.error = none ∧ s.records.length < s.count ∧ s.buffer = some m ∧
    (s.offset + 4 * s.records.length) % 4 = 0 ∧ s.offset + 4 * s.records.length + 4 ≤ m.length ∧
    offsetOverflows s.params (s.offset + 4 * s.records.length) = false ∧
    m.read (s.offset + 4 * s.records.length) = some 0x08 ∧ m.read (s.offset + 4 * s.records.length + 1) = some 0 ∧
    m.read (s.offset + 4 * s.records.length + 2) = some 0 ∧
    m.read (s.offset + 4 * s.records.length + 3) = some 0x64 ∧
    decodeBytes [0x08, 0, 0, 0x64] = .ok (.j 0x64, []) := by decide

/-- One state for each of the two decode errors. -/
theorem witness_StepRaisesDecodeErrors :
    (let s := call [0xFF, 0xFF, 0xFF, 0xFF] 0 1 none
     s.error = none ∧ s.records.length < s.count ∧
      readWord s.params s.buffer (s.offset + 4 * s.records.length) = .ok 0xFFFFFFFF ∧
      decode 0xFFFFFFFF = .error (.unrecognizedFormat 0xFFFFFFFF)) ∧
    (let s := call [0x01, 0x09, 0x50, 0x2A] 0 1 none
     s.error = none ∧ s.records.length < s.count ∧
      readWord s.params s.buffer (s.offset + 4 * s.records.length) = .ok 0x0109502A ∧
      decode 0x0109502A = .error (.unsupportedFunct 0x0109502A)) := by decide

/-- One state for each way a read fails: out of bounds after a record has been made, misaligned, absent buffer. -/
theorem witness_StepRaisesReadErrors :
    (let s : State := { call [0x20, 0x08, 0x00, 0x05, 0x20] 0 2 none with
        records := [⟨0x20080005, .i, .add, "addi"⟩] }
     s.error = none ∧ s.records.length < s.count ∧
      readWord s.params s.buffer (s.offset + 4 * s.records.length) = .error (.outOfBounds 4 5)) ∧
    (let s := call [1, 2, 3, 4, 5, 6, 7, 8] 1 1 none
     s.error = none ∧ s.records.length < s.count ∧
      readWord s.params s.buffer (s.offset + 4 * s.records.length) = .error (.invalidArgument (.misaligned 1))) ∧
    (let s := State.reset.start none 0 1 none
     s.error = none ∧ s.records.length < s.count ∧
      readWord s.params s.buffer (s.offset + 4 * s.records.length) = .error (.invalidArgument .absentBuffer)) := by
  decide

theorem witness_StepRendersTheNextRecord :
    (let s : State := { call [0x08, 0, 0, 0x64] 0 1 (some "t") with records := [⟨0x08000064, .j, .jump, "j"⟩] }
     s.error = none ∧ s.count ≤ s.records.length ∧ s.label ≠ none ∧
      s.records[s.lines.length]? = some ⟨0x08000064, .j, .jump, "j"⟩ ∧
      render s.params ⟨0x08000064, .j, .jump, "j"⟩ = .ok "j 64") ∧
    (let s : State := { call [0x03, 0xE0, 0, 8] 0 1 (some "t") with records := [⟨0x03E00008, .r, .jump, "jr"⟩] }
     s.error = none ∧ s.count ≤ s.records.length ∧ s.label ≠ none ∧
      s.records[s.lines.length]? = some ⟨0x03E00008, .r, .jump, "jr"⟩ ∧
      render s.params ⟨0x03E00008, .r, .jump, "jr"⟩ = .error (.unsupportedRegister 31)) := by decide

/-- A state of each phase; the ended one makes the step fault. -/
theorem witness_OnlyTheEndOfTheRunStops :
    State.reset.phase = .ended ∧ nextOf (step State.reset) = none ∧ (call [0, 0, 0, 0] 0 1 none).phase = .decoding ∧
    (nextOf (step (call [0, 0, 0, 0] 0 1 none))).isSome = true := by decide

/-- The hypotheses of the invariant statements, together: a state at the start of a call that has every invariant and
that steps to a next state (`StepsNeverWriteTheBuffer`, `StepsKeepTheBookkeeping`, `StepsKeepTheRunFaithful`,
`StepsKeepRecordsWellFormed`). -/
theorem witness_StepsKeepTheInvariants :
    let s := call [0x08, 0, 0, 0x64] 0 1 (some "t")
    s.Canonical ∧ s.Faithful ∧ (∀ r ∈ s.records, r.wf = true) ∧ ∃ t, step s = .next t := by
  refine ⟨fun m h => ?_, ⟨⟨by decide, by decide, by decide, by decide, by decide⟩, rfl, rfl, fun e h => ?_⟩,
    by decide, _, rfl⟩
  · cases h; decide
  · cases h

/-- Two machines with different histories (one after an error, one at reset) and the same parameters; a call whose first
word decodes, one whose first word fails to decode, and a call of `render_all`. -/
theorem witness_CallsDoNotDependOnHistory :
    let s₁ := State.reset
    let s₂ := raise (.unsupportedRegister 31) 3 (some 12) (State.reset.drive 0x03E00008)
    s₁.params = s₂.params ∧ s₁ ≠ s₂ ∧
    (∃ t₁, Host.Core.run Sys2Proof.core 1 (s₁.start (some (Memory.ofBytes [0x08, 0, 0, 0x64])) 0 1 none) = .next t₁ ∧
      t₁.records ≠ [] ∧ t₁.error = none) ∧
    (∃ t₁, Host.Core.run Sys2Proof.core 1 (s₁.start (some (Memory.ofBytes [0, 0, 0, 0x3F])) 0 1 none) = .next t₁ ∧
      t₁.error = some ⟨.unsupportedFunct 0x3F, 0, some 0⟩) ∧
    ∃ t₁, Host.Core.run Sys2Proof.core 1 (s₁.startRender [⟨0x08000064, .j, .jump, "j"⟩] "t") = .next t₁ :=
  ⟨by decide, by decide, ⟨_, rfl, by decide, rfl⟩, ⟨_, rfl, rfl⟩, _, rfl⟩

end Sys2Proof.Tests
end

section
/-! PROOFS. The records that decode returns are the records of the instructions, and what the output ports carry for a
word that resolves and for a word that does not (10_state.md R26, R28, R29; 60_exceptions.md R112). -/

namespace Sys2Proof

/-! ## The classifier and the tables -/

/-- The classifier reads the opcode and nothing else. -/
theorem classify_congr {w w' : Word} (ho : opcodeOf w = opcodeOf w') : classify w = classify w' := by
  rw [classify, classify, ho]

/-- Opcode and funct decide which row, if any, a word resolves to. -/
theorem resolve_congr {w w' : Word} (ho : opcodeOf w = opcodeOf w') (hf : functOf w = functOf w') :
    (resolve w).toOption = (resolve w').toOption := by
  rw [resolve, resolve, classify_congr ho, ho, hf]
  cases classify w' with
  | unrecognized => rfl
  | r => cases functTable.lookup (functOf w') <;> rfl
  | i => cases formatITable.lookup (opcodeOf w') <;> rfl
  | j => rfl

/-- The format a word resolves to is the classifier's answer. -/
theorem classify_of_resolve_ok {w : Word} {f : Format} {k : Kind} {m : Mnemonic} (h : resolve w = .ok (f, k, m)) :
    classify w = f := by
  rw [resolve] at h
  cases hc : classify w with
  | unrecognized => simp [hc] at h
  | r => cases hl : functTable.lookup (functOf w) <;> simp_all
  | i => cases hl : formatITable.lookup (opcodeOf w) <;> simp_all
  | j => simp_all

/-- An opcode outside the classifier's table (40_decode_algorithm.md R75). -/
theorem classify_resolve_of_opcode_notMem {w : Word} (h : opcodeOf w ∉ [0#6, 2, 4, 5, 8, 9]) :
    classify w = .unrecognized ∧ resolve w = .error (.unrecognizedFormat w) := by
  have hc : classify w = .unrecognized := by
    simp only [List.mem_cons, List.not_mem_nil, or_false, not_or, BitVec.ofNat_eq_ofNat] at h
    simpa [h] using classify_cases w
  exact ⟨hc, by rw [resolve, hc]⟩

/-- Opcode 0 with a funct outside the funct table (40_decode_algorithm.md R75). -/
theorem classify_resolve_of_funct_notMem {w : Word} (h : opcodeOf w = 0)
    (hf : functOf w ∉ [0#6, 2, 8, 32, 33, 34, 35]) :
    classify w = .r ∧ resolve w = .error (.unsupportedFunct w) := by
  have hc : classify w = .r := by rw [classify, h]; rfl
  have hl : functTable.lookup (functOf w) = none := by
    have key : ∀ f : BitVec 6, f ∉ [0#6, 2, 8, 32, 33, 34, 35] → functTable.lookup f = none := by decide
    exact key (functOf w) hf
  exact ⟨hc, by rw [resolve, hc, hl]⟩

/-- The two errors of a word that resolves to no row. -/
theorem error_of_resolve_error {w : Word} {e : Error} (h : resolve w = .error e) :
    e = .unrecognizedFormat w ∨ e = .unsupportedFunct w := by
  rcases resolve_cases w with ⟨_, k, m, _, hr⟩ | ⟨k, m, _, hr⟩ | ⟨_, hr⟩ | ⟨_, hr⟩ | ⟨_, _, hr⟩
  · simp [hr] at h
  · simp [hr] at h
  · simp [hr] at h
  · exact .inl (Except.error.inj (h.symm.trans hr))
  · exact .inr (Except.error.inj (h.symm.trans hr))

/-! ## `decode` through `resolve` -/

/-- `decode` returns a record exactly when the word resolves, and the record holds the word and what it resolves to. -/
theorem decode_ok_iff {w : Word} {r : Record} :
    decode w = .ok r ↔ ∃ f k m, resolve w = .ok (f, k, m) ∧ r = ⟨w, f, k, m.text⟩ := by
  rcases h : resolve w with e | ⟨f, k, m⟩
  · simp [decode, h]
  · simp [decode, h, eq_comm]

/-- `decode` raises exactly the error of `resolve`. -/
theorem decode_error_iff {w : Word} {e : Error} : decode w = .error e ↔ resolve w = .error e := by
  rcases h : resolve w with e' | ⟨f, k, m⟩ <;> simp [decode, h]

/-! ## A decoded word is the word of an instruction -/

/-- A word that resolves to a row is the word of the instruction of that row whose operands are its slices. -/
theorem ofWord_of_resolve_ok {w : Word} {f : Format} {k : Kind} {m : Mnemonic} (h : resolve w = .ok (f, k, m)) :
    encode (Instr.ofWord m w) = w ∧ (Instr.ofWord m w).mnemonic = m ∧ (Instr.ofWord m w).format = f ∧
      (Instr.ofWord m w).kind = k := by
  rcases resolve_cases w with ⟨ho, k', m', hm, hr⟩ | ⟨k', m', hm, hr⟩ | ⟨ho, hr⟩ | ⟨_, hr⟩ | ⟨_, _, hr⟩
  · obtain ⟨rfl, rfl, rfl⟩ : Format.r = f ∧ k' = k ∧ m' = m := by simpa [hr] using h
    have hw := encodeR_of_slices w ho
    simp only [functTable, List.mem_cons, Prod.mk.injEq, List.not_mem_nil, or_false] at hm
    rcases hm with ⟨hf, rfl, rfl⟩ | ⟨hf, rfl, rfl⟩ | ⟨hf, rfl, rfl⟩ | ⟨hf, rfl, rfl⟩ | ⟨hf, rfl, rfl⟩ |
      ⟨hf, rfl, rfl⟩ | ⟨hf, rfl, rfl⟩ <;>
    · rw [hf] at hw
      exact ⟨hw, rfl, rfl, rfl⟩
  · obtain ⟨rfl, rfl, rfl⟩ : Format.i = f ∧ k' = k ∧ m' = m := by simpa [hr] using h
    have hw := encodeI_of_slices w
    simp only [formatITable, List.mem_cons, Prod.mk.injEq, List.not_mem_nil, or_false] at hm
    rcases hm with ⟨ho, rfl, rfl⟩ | ⟨ho, rfl, rfl⟩ | ⟨ho, rfl, rfl⟩ | ⟨ho, rfl, rfl⟩ <;>
    · rw [ho] at hw
      exact ⟨hw, rfl, rfl, rfl⟩
  · obtain ⟨rfl, rfl, rfl⟩ : Format.j = f ∧ Kind.jump = k ∧ Mnemonic.j = m := by simpa [hr] using h
    exact ⟨encodeJ_of_slices w ho, rfl, rfl, rfl⟩
  · simp [hr] at h
  · simp [hr] at h

/-- Every record that decode returns is the record of an instruction, of which the word is the encoding. -/
theorem decode_ok_eq_record {w : Word} {r : Record} (h : decode w = .ok r) :
    ∃ i : Instr, encode i = w ∧ r = i.record := by
  obtain ⟨f, k, m, hr, rfl⟩ := decode_ok_iff.mp h
  obtain ⟨he, hm, hf, hk⟩ := ofWord_of_resolve_ok hr
  exact ⟨Instr.ofWord m w, he, by rw [Instr.record, he, hm, hf, hk]⟩

/-- Every instruction's word selects its own row of the opcode map (30_encoding.md R61). -/
theorem encode_selects_row (i : Instr) : Laws.EncodesItsRow.Statement i := by
  cases i with
  | add rs rt rd sh => exact Laws.EncodesItsRow.add rs rt rd sh
  | addu rs rt rd sh => exact Laws.EncodesItsRow.addu rs rt rd sh
  | sub rs rt rd sh => exact Laws.EncodesItsRow.sub rs rt rd sh
  | subu rs rt rd sh => exact Laws.EncodesItsRow.subu rs rt rd sh
  | sll rs rt rd sh => exact Laws.EncodesItsRow.sll rs rt rd sh
  | srl rs rt rd sh => exact Laws.EncodesItsRow.srl rs rt rd sh
  | jr rs rt rd sh => exact Laws.EncodesItsRow.jr rs rt rd sh
  | addi rs rt imm => exact Laws.EncodesItsRow.addi rs rt imm
  | addiu rs rt imm => exact Laws.EncodesItsRow.addiu rs rt imm
  | beq rs rt imm => exact Laws.EncodesItsRow.beq rs rt imm
  | bne rs rt imm => exact Laws.EncodesItsRow.bne rs rt imm
  | j a => exact Laws.EncodesItsRow.j a

/-- A record that decode returns is a row of the opcode map that the word selects. -/
theorem decode_ok_row {w : Word} {r : Record} (h : decode w = .ok r) :
    ∃ row ∈ opcodeMap, row.selects w = true ∧ r = ⟨w, row.format, row.kind, row.mnemonic.text⟩ := by
  obtain ⟨i, rfl, rfl⟩ := decode_ok_eq_record h
  obtain ⟨-, row, hmem, hm, hf, hk, hs⟩ := encode_selects_row i
  exact ⟨row, hmem, hs, by rw [Instr.record, hm, hf, hk]⟩

/-- A record that decode returns is well-formed (10_state.md R26). -/
theorem decode_ok_wf {w : Word} {r : Record} (h : decode w = .ok r) : r.wf = true := by
  obtain ⟨row, hmem, hs, rfl⟩ := decode_ok_row h
  exact List.any_eq_true.mpr ⟨row, hmem, by simp [hs]⟩

/-- No row of the opcode map has format Unrecognized or kind Unknown. -/
theorem opcodeMap_recognized : ∀ row ∈ opcodeMap, row.format ≠ .unrecognized ∧ row.kind ≠ .unknown := by decide

/-- The mnemonic's text names the row of the opcode map (10_state.md R26 (d)). -/
theorem opcodeMap_eq_of_text : ∀ a ∈ opcodeMap, ∀ b ∈ opcodeMap, a.mnemonic.text = b.mnemonic.text → a = b := by
  decide

/-- Settles O13: a decoded record is a row of the opcode map, the format is the classifier's answer to the opcode, and
`resolve` reads the opcode and the funct only. -/
theorem recordInvariants : Obligations.RecordInvariants := by
  unfold Obligations.RecordInvariants
  refine ⟨fun w r h => ?_, fun w w' r r' h h' => ⟨fun ho => ?_, fun _ ho hf => ?_, fun hm => ?_⟩⟩
  · have hwf := decode_ok_wf h
    obtain ⟨row, hmem, -, rfl⟩ := decode_ok_row h
    exact ⟨rfl, hwf, opcodeMap_recognized row hmem⟩
  · obtain ⟨f, k, m, hr, rfl⟩ := decode_ok_iff.mp h
    obtain ⟨f', k', m', hr', rfl⟩ := decode_ok_iff.mp h'
    calc f = classify w := (classify_of_resolve_ok hr).symm
      _ = classify w' := classify_congr ho
      _ = f' := classify_of_resolve_ok hr'
  · obtain ⟨f, k, m, hr, rfl⟩ := decode_ok_iff.mp h
    obtain ⟨f', k', m', hr', rfl⟩ := decode_ok_iff.mp h'
    have heq : (resolve w).toOption = (resolve w').toOption := resolve_congr ho hf
    rw [hr, hr'] at heq
    cases heq
    exact ⟨rfl, rfl⟩
  · obtain ⟨a, ha, -, rfl⟩ := decode_ok_row h
    obtain ⟨b, hb, -, rfl⟩ := decode_ok_row h'
    cases opcodeMap_eq_of_text a ha b hb hm
    exact ⟨rfl, rfl⟩

end Sys2Proof

namespace Sys2Proof.Machine

/-! ## The output ports -/

/-- The ports for a word that resolves: the codes of what it resolves to. -/
theorem portsOf_of_resolve_ok {w : Word} {f : Format} {k : Kind} {m : Mnemonic} (h : resolve w = .ok (f, k, m)) :
    (portsOf w).ok = 1 ∧ (portsOf w).err = 0 ∧ (portsOf w).format = formatCode f ∧ (portsOf w).kind = kindCode k ∧
      (portsOf w).mnem = mnemonicCode m := by
  simp [portsOf, okOutput, errOutput, kindOutput, mnemOutput, decode, h, classify_of_resolve_ok h]

/-- The ports for a word that does not resolve: the error's code, the classifier's format, Unknown and no mnemonic. -/
theorem portsOf_of_resolve_error {w : Word} {e : Error} (h : resolve w = .error e) :
    (portsOf w).ok = 0 ∧ (portsOf w).err = errorCode (errorKind e) ∧ (portsOf w).format = formatCode (classify w) ∧
      (portsOf w).kind = kindCode .unknown ∧ (portsOf w).mnem = 15 := by
  simp [portsOf, okOutput, errOutput, kindOutput, mnemOutput, decode, h]

/-- `raw` and the slices follow the word whatever `ok` is (10_state.md R28). -/
theorem portsOf_slices (w : Word) :
    (portsOf w).raw = w ∧ (portsOf w).opcode = w.extractLsb' 26 6 ∧ (portsOf w).rs = w.extractLsb' 21 5 ∧
      (portsOf w).rt = w.extractLsb' 16 5 ∧ (portsOf w).rd = w.extractLsb' 11 5 ∧
      (portsOf w).shamt = w.extractLsb' 6 5 ∧ (portsOf w).funct = w.extractLsb' 0 6 ∧
      (portsOf w).imm = w.extractLsb' 0 16 ∧ (portsOf w).addr = w.extractLsb' 0 26 :=
  ⟨rfl, rfl, rfl, rfl, rfl, rfl, rfl, rfl, rfl⟩

/-- While the input is driven, the outputs are those of its word. -/
theorem outputs_of_word {s : State} {w : Word} (h : s.word = some w) : s.outputs = portsOf w := by
  rw [State.outputs, h]

/-! ## The codes, read through the rule's lists (10_state.md R28) -/

theorem getElem?_formatCode (f : Format) : [Format.r, .i, .j, .unrecognized][(formatCode f).toNat]? = some f := by
  cases f <;> rfl

theorem getElem?_kindCode (k : Kind) :
    [Kind.add, .sub, .shift, .jump, .branch, .unknown][(kindCode k).toNat]? = some k := by
  cases k <;> rfl

theorem getElem?_mnemonicCode (m : Mnemonic) :
    ["add", "addu", "sub", "subu", "sll", "srl", "jr", "addi", "addiu", "beq", "bne", "j"][(mnemonicCode m).toNat]? =
      some m.text := by
  cases m <;> rfl

theorem kindCode_driven (k : Kind) : kindCode k ∉ [6#3, 7] := by
  cases k <;> decide

theorem mnemonicCode_driven (m : Mnemonic) : mnemonicCode m ∉ [12#4, 13, 14] := by
  cases m <;> decide

/-- The codes the rule says are never driven are not: `err` carries no error of the reader or the renderer. -/
theorem portsOf_codes_driven (w : Word) :
    (portsOf w).err ∈ [0#3, 3, 4] ∧ (portsOf w).kind ∉ [6#3, 7] ∧ (portsOf w).mnem ∉ [12#4, 13, 14] := by
  cases h : resolve w with
  | ok x =>
    obtain ⟨f, k, m⟩ := x
    obtain ⟨-, herr, -, hkind, hmnem⟩ := portsOf_of_resolve_ok h
    rw [herr, hkind, hmnem]
    exact ⟨by decide, kindCode_driven k, mnemonicCode_driven m⟩
  | error e =>
    obtain ⟨-, herr, -, hkind, hmnem⟩ := portsOf_of_resolve_error h
    rw [herr, hkind, hmnem]
    refine ⟨?_, kindCode_driven .unknown, by decide⟩
    rcases error_of_resolve_error h with rfl | rfl
    · simp [errorKind, errorCode]
    · simp [errorKind, errorCode]

/-! ## Which function raises which error kind (60_exceptions.md R112) -/

theorem readWord_errorKind {p : Params} {buf : Option Memory} {o : Nat} {e : Error}
    (h : readWord p buf o = .error e) : errorKind e ∈ [ErrorKind.outOfBounds, .invalidArgument] := by
  rcases readWord_cases p buf o with ⟨_, hr⟩ | ⟨m, _, _, hr⟩ | ⟨m, _, _, hr⟩ |
      ⟨m, b0, b1, b2, b3, _, _, _, _, _, _, _, _, hr⟩ <;> rw [hr] at h <;> cases h
  · decide
  · simp [errorKind]
  · simp [errorKind]

theorem decode_errorKind {w : Word} {e : Error} (h : decode w = .error e) :
    errorKind e ∈ [ErrorKind.unrecognizedFormat, .unsupportedFunct] := by
  rcases error_of_resolve_error (decode_error_iff.mp h) with rfl | rfl
  · simp [errorKind]
  · simp [errorKind]

theorem render_errorKind {p : Params} {r : Record} {e : Error} (h : render p r = .error e) :
    errorKind e ∈ [ErrorKind.unsupportedRegister, .unhandledTemplate] := by
  rcases render_cases p r with ⟨_, hr⟩ | ⟨t, e', _, ho, hr⟩ | ⟨t, ops, _, _, hr⟩ <;> rw [hr] at h <;> cases h
  · simp [errorKind]
  · obtain ⟨i, rfl, -⟩ := renderOperands_error p r.raw t e ho
    simp [errorKind]

/-- Settles O25: the ports carry the codes of what `resolve` answers, and each function's cases name its errors. -/
theorem portsCarryTheRecord : Obligations.PortsCarryTheRecord := by
  unfold Obligations.PortsCarryTheRecord
  refine ⟨fun w s s' h h' => ⟨(outputs_of_word h).trans (outputs_of_word h').symm, outputs_of_word h⟩, fun w => ?_,
    fun w r h => ?_, fun w e h => ?_, rfl, fun _ _ _ _ => readWord_errorKind, fun _ _ => decode_errorKind,
    fun _ _ _ => render_errorKind⟩
  · obtain ⟨hraw, hop, hrs, hrt, hrd, hsh, hfu, himm, haddr⟩ := portsOf_slices w
    exact ⟨hraw, hop, hrs, hrt, hrd, hsh, hfu, himm, haddr, portsOf_codes_driven w⟩
  · obtain ⟨f, k, m, hr, rfl⟩ := decode_ok_iff.mp h
    obtain ⟨hok, herr, hformat, hkind, hmnem⟩ := portsOf_of_resolve_ok hr
    refine ⟨hok, herr, rfl, ?_, ?_, ?_⟩
    · rw [hformat, getElem?_formatCode]
    · rw [hkind, getElem?_kindCode]
    · rw [hmnem, getElem?_mnemonicCode]
  · have hr := decode_error_iff.mp h
    obtain ⟨hok, herr, -⟩ := portsOf_of_resolve_error hr
    refine ⟨hok, ?_⟩
    rcases error_of_resolve_error hr with rfl | rfl
    · exact .inl ⟨rfl, herr⟩
    · exact .inr ⟨rfl, herr⟩

/-- Settles O26: each kind of bad word fixes the classifier's answer and the error, and the slices do not depend on
`ok`. -/
theorem portsOnFailedDecode : Obligations.PortsOnFailedDecode := by
  unfold Obligations.PortsOnFailedDecode
  refine fun w => ⟨fun hop => ?_, fun hop hf => ?_, fun _ => portsOf_slices w⟩
  · obtain ⟨hc, hr⟩ := classify_resolve_of_opcode_notMem hop
    obtain ⟨hok, herr, hformat, hkind, hmnem⟩ := portsOf_of_resolve_error hr
    exact ⟨hok, herr, hformat.trans (by rw [hc]; rfl), hkind, hmnem⟩
  · obtain ⟨hc, hr⟩ := classify_resolve_of_funct_notMem hop hf
    obtain ⟨hok, herr, hformat, hkind, hmnem⟩ := portsOf_of_resolve_error hr
    exact ⟨hok, herr, hformat.trans (by rw [hc]; rfl), hkind, hmnem⟩

end Sys2Proof.Machine
end

section
/-! PROOFS. The big-endian join of four bytes as slices, as a number and as the rule's formula, and what `readWord`
answers under each of its checks (20_memory.md R36, R39). -/

namespace Sys2Proof

/-! ## The join of four bytes -/

/-- The bytes of a joined word are the joined bytes, in buffer order. -/
theorem wordBytes_joinBytes (b0 b1 b2 b3 : Byte) : wordBytes (joinBytes b0 b1 b2 b3) = [b0, b1, b2, b3] := by
  have h0 : (joinBytes b0 b1 b2 b3).extractLsb' 24 8 = b0 :=
    (extract_append_high 16 8 _ b3).trans ((extract_append_high 8 8 _ b2).trans
      ((extract_append_high 0 8 _ b1).trans BitVec.extractLsb'_eq_self))
  have h1 : (joinBytes b0 b1 b2 b3).extractLsb' 16 8 = b1 :=
    (extract_append_high 8 8 _ b3).trans ((extract_append_high 0 8 _ b2).trans (extract_append_low _ b1))
  have h2 : (joinBytes b0 b1 b2 b3).extractLsb' 8 8 = b2 :=
    (extract_append_high 0 8 _ b3).trans (extract_append_low _ b2)
  have h3 : (joinBytes b0 b1 b2 b3).extractLsb' 0 8 = b3 := extract_append_low _ b3
  rw [wordBytes, h0, h1, h2, h3]

/-- The rule's formula on the bytes' unsigned values. -/
theorem toNat_joinBytes (b0 b1 b2 b3 : Byte) :
    (joinBytes b0 b1 b2 b3).toNat = b0.toNat <<< 24 ||| b1.toNat <<< 16 ||| b2.toNat <<< 8 ||| b3.toNat := by
  simp only [joinBytes, BitVec.toNat_append, Nat.shiftLeft_or_distrib, ← Nat.shiftLeft_add]

/-- A byte shifted left by at most 24 places loses no bit in a word. -/
theorem toNat_setWidth_shiftLeft (b : Byte) {n : Nat} (hn : n ≤ 24) :
    (b.setWidth 32 <<< n).toNat = b.toNat <<< n := by
  have hlt : b.toNat <<< n < 2 ^ 32 := calc
    b.toNat <<< n < 2 ^ (8 + n) := by
      rw [Nat.shiftLeft_eq, Nat.pow_add]
      exact Nat.mul_lt_mul_of_pos_right b.isLt (Nat.two_pow_pos n)
    _ ≤ 2 ^ 32 := Nat.pow_le_pow_right (by decide) (by omega)
  rw [BitVec.toNat_shiftLeft, BitVec.toNat_setWidth_of_le (by decide), Nat.mod_eq_of_lt hlt]

/-- The rule's formula in 32-bit arithmetic. -/
theorem joinBytes_eq_or (b0 b1 b2 b3 : Byte) :
    joinBytes b0 b1 b2 b3 =
      b0.setWidth 32 <<< 24 ||| b1.setWidth 32 <<< 16 ||| b2.setWidth 32 <<< 8 ||| b3.setWidth 32 := by
  apply BitVec.eq_of_toNat_eq
  simp only [toNat_joinBytes, BitVec.toNat_or, toNat_setWidth_shiftLeft, Nat.reduceLeDiff,
    BitVec.toNat_setWidth_of_le]

end Sys2Proof

namespace Sys2Proof.Machine

/-! ## `readWord` under each of its checks -/

/-- An unbounded offset never overflows. -/
theorem offsetOverflows_of_unbounded {p : Params} (h : p.offsetBits = none) (o : Nat) :
    offsetOverflows p o = false := by
  rw [offsetOverflows, h]

theorem readWord_absent (p : Params) (o : Nat) : readWord p none o = .error (.invalidArgument .absentBuffer) := rfl

/-- Alignment is checked before the bounds. -/
theorem readWord_of_misaligned (p : Params) (m : Memory) {o : Nat} (ho : o % 4 ≠ 0) :
    readWord p (some m) o = .error (.invalidArgument (.misaligned o)) := by
  rw [readWord, if_pos ho]

theorem readWord_of_short (p : Params) {m : Memory} {o : Nat} (ho : o % 4 = 0) (hlen : m.length < o + 4) :
    readWord p (some m) o = .error (.outOfBounds o m.length) := by
  rw [readWord, if_neg (not_not_intro ho), if_pos (.inl hlen)]

/-- Past the checks, the word is the join of the four bytes at the offset. -/
theorem readWord_of_reads {p : Params} {m : Memory} {o : Nat} {b0 b1 b2 b3 : Byte} (ho : o % 4 = 0)
    (hlen : o + 4 ≤ m.length) (hp : offsetOverflows p o = false) (h0 : m.read o = some b0)
    (h1 : m.read (o + 1) = some b1) (h2 : m.read (o + 2) = some b2) (h3 : m.read (o + 3) = some b3) :
    readWord p (some m) o = .ok (joinBytes b0 b1 b2 b3) := by
  simp [readWord, ho, hp, h0, h1, h2, h3, Nat.not_lt.mpr hlen]

/-- A word is read only as the join of the four bytes at the offset. -/
theorem reads_of_readWord_ok {p : Params} {m : Memory} {o : Nat} {w : Word} (h : readWord p (some m) o = .ok w) :
    ∃ b0 b1 b2 b3, m.read o = some b0 ∧ m.read (o + 1) = some b1 ∧ m.read (o + 2) = some b2 ∧
      m.read (o + 3) = some b3 ∧ w = joinBytes b0 b1 b2 b3 := by
  rcases readWord_cases p (some m) o with ⟨_, hr⟩ | ⟨_, _, _, hr⟩ | ⟨_, _, _, hr⟩ |
      ⟨_, b0, b1, b2, b3, hm, _, _, _, h0, h1, h2, h3, hr⟩
  · simp [hr] at h
  · simp [hr] at h
  · simp [hr] at h
  · cases hm
    exact ⟨b0, b1, b2, b3, h0, h1, h2, h3, Except.ok.inj (h.symm.trans hr)⟩

/-- In canonical form there is a byte at every offset inside the buffer. -/
theorem Memory.exists_read {m : Memory} (hm : m.wf = true) {a : Nat} (ha : a < m.length) : ∃ b, m.read a = some b :=
  Option.isSome_iff_exists.mp ((m.read_isSome_iff hm a).mpr ha)

/-- Settles O27: a read word is the join of its four bytes, and the join has the slices and the value of the rule. -/
theorem wordsAreBigEndian : Obligations.WordsAreBigEndian := by
  unfold Obligations.WordsAreBigEndian
  refine ⟨fun p m o w h => ?_, toNat_joinBytes, fun p m o b0 b1 b2 b3 h0 h1 h2 h3 w h => ?_, by decide⟩
  · obtain ⟨b0, b1, b2, b3, h0, h1, h2, h3, rfl⟩ := reads_of_readWord_ok h
    have hb := wordBytes_joinBytes b0 b1 b2 b3
    simp only [wordBytes, List.cons.injEq, and_true] at hb
    obtain ⟨e0, e1, e2, e3⟩ := hb
    rw [e0, e1, e2, e3]
    exact ⟨h0, h1, h2, h3⟩
  · obtain ⟨c0, c1, c2, c3, k0, k1, k2, k3, rfl⟩ := reads_of_readWord_ok h
    cases h0.symm.trans k0
    cases h1.symm.trans k1
    cases h2.symm.trans k2
    cases h3.symm.trans k3
    rfl

/-- Settles O28: one lemma for each check in its order; past them canonical form gives the four bytes. -/
theorem readWordChecksInOrder : Obligations.ReadWordChecksInOrder := by
  unfold Obligations.ReadWordChecksInOrder
  refine ⟨fun p o hp => ⟨readWord_absent p o, fun m hm => ⟨readWord_of_misaligned p m, readWord_of_short p,
    fun ho hlen => ?_⟩⟩, readWord_of_misaligned _ _ (by decide)⟩
  obtain ⟨b0, h0⟩ := Memory.exists_read hm (show o < m.length by omega)
  obtain ⟨b1, h1⟩ := Memory.exists_read hm (show o + 1 < m.length by omega)
  obtain ⟨b2, h2⟩ := Memory.exists_read hm (show o + 2 < m.length by omega)
  obtain ⟨b3, h3⟩ := Memory.exists_read hm (show o + 3 < m.length by omega)
  refine ⟨b0, b1, b2, b3, h0, h1, h2, h3, ?_⟩
  rw [← joinBytes_eq_or]
  exact readWord_of_reads ho hlen (offsetOverflows_of_unbounded hp o) h0 h1 h2 h3

end Sys2Proof.Machine
end

section
/-! PROOFS. Each field as the shift and mask of the unsigned word, the classifier and the tables as functions of opcode
and funct, and the rows of the opcode map (30_encoding.md R49, R53, R58 to R61). -/

namespace Sys2Proof

/-! ## Slices as shifts and masks (30_encoding.md R53) -/

/-- A slice as a number: the word shifted down and masked to the slice's width. -/
theorem toNat_extractLsb'_eq_shift_mask (w : Word) (s l : Nat) :
    (w.extractLsb' s l).toNat = w.toNat >>> s &&& 2 ^ l - 1 := by
  rw [BitVec.extractLsb'_toNat, Nat.and_two_pow_sub_one_eq_mod]

/-- The immediate is the fields `rd`, `shamt`, `funct` of format R side by side. -/
theorem immOf_eq_append (w : Word) : immOf w = rdOf w ++ shamtOf w ++ functOf w := by
  rw [rdOf, shamtOf, functOf, extract_join w 6 5 5, extract_join w 0 6 10]
  rfl

/-- The address is the fields `rs`, `rt`, `imm` of format I side by side. -/
theorem addrOf_eq_append (w : Word) : addrOf w = rsOf w ++ rtOf w ++ immOf w := by
  rw [rsOf, rtOf, immOf, extract_join w 16 5 5, extract_join w 0 16 10]
  rfl

/-- The opcode is the number above the low 26 bits. -/
theorem toNat_opcodeOf (w : Word) : (opcodeOf w).toNat = w.toNat / 2 ^ 26 := by
  rw [opcodeOf, BitVec.extractLsb'_toNat, Nat.shiftRight_eq_div_pow]
  have := w.isLt
  omega

/-- The opcode, from the number above the low 26 bits. -/
theorem opcodeOf_of_div {w : Word} {n : Nat} (h : w.toNat / 2 ^ 26 = n) : opcodeOf w = BitVec.ofNat 6 n := by
  rw [← h, ← toNat_opcodeOf, BitVec.ofNat_toNat, BitVec.setWidth_eq]

/-- Settles O1: the quotient by 2^26 is the opcode, and the classifier looks that up. -/
theorem formatIsFunctionOfOpcode : Obligations.FormatIsFunctionOfOpcode := by
  unfold Obligations.FormatIsFunctionOfOpcode
  refine fun w => ⟨fun h => ?_, fun h => ?_, fun h => ?_, fun h => ?_, fun w' h => ?_⟩
  · rw [classify, opcodeOf_of_div h]
    rfl
  · rw [classify, opcodeOf_of_div h]
    rfl
  · rw [classify, opcodeOf_of_div rfl]
    have key : ∀ n ∈ [4, 5, 8, 9], (opcodeFormats.lookup (BitVec.ofNat 6 n)).getD .unrecognized = .i := by decide
    exact key _ h
  · refine (classify_resolve_of_opcode_notMem fun hmem => h ?_).1
    rw [← toNat_opcodeOf]
    exact List.mem_map_of_mem (f := BitVec.toNat) hmem
  · exact classify_congr (by rw [opcodeOf_of_div h, opcodeOf_of_div rfl])

/-! ## The operation tables (30_encoding.md R58, R59, R60) -/

/-- Only opcode 0 is of format R. -/
theorem opcodeOf_of_classify_r {w : Word} (h : classify w = .r) : opcodeOf w = 0 := by
  simpa [h] using classify_cases w

/-- The opcodes of format I. -/
theorem opcodeOf_of_classify_i {w : Word} (h : classify w = .i) :
    opcodeOf w = 4 ∨ opcodeOf w = 5 ∨ opcodeOf w = 8 ∨ opcodeOf w = 9 := by
  simpa [h] using classify_cases w

/-- A format R word resolves to the entry of its funct. -/
theorem resolve_of_classify_r {w : Word} {k : Kind} {m : Mnemonic} (hc : classify w = .r)
    (hl : functTable.lookup (functOf w) = some (k, m)) : resolve w = .ok (.r, k, m) := by
  rw [resolve, hc, hl]

/-- A format I word resolves to the entry of its opcode. -/
theorem resolve_of_classify_i {w : Word} {k : Kind} {m : Mnemonic} (hc : classify w = .i)
    (hl : formatITable.lookup (opcodeOf w) = some (k, m)) : resolve w = .ok (.i, k, m) := by
  rw [resolve, hc, hl]

/-- A format J word is a jump. -/
theorem resolve_of_classify_j {w : Word} (hc : classify w = .j) : resolve w = .ok (.j, .jump, .j) := by
  rw [resolve, hc]

/-- Settles O3: format R by the entry of the funct, format I by the entry of the opcode, format J without a table. -/
theorem operationTablesResolveKindAndMnemonic : Obligations.OperationTablesResolveKindAndMnemonic := by
  unfold Obligations.OperationTablesResolveKindAndMnemonic
  refine ⟨fun w hc => ?_, fun w hc => ?_, fun w => resolve_of_classify_j⟩
  · have entry : ∀ {f k m}, functTable.lookup f = some (k, m) → functOf w = f → resolve w = .ok (.r, k, m) :=
      fun hl hf => resolve_of_classify_r hc (hf ▸ hl)
    exact ⟨entry rfl, entry rfl, entry rfl, entry rfl, entry rfl, entry rfl, entry rfl,
      fun hf => (classify_resolve_of_funct_notMem (opcodeOf_of_classify_r hc) hf).2⟩
  · have entry : ∀ {op k m}, opcodeOf w = op → formatITable.lookup op = some (k, m) →
        opcodeOf w = op ∧ resolve w = .ok (.i, k, m) :=
      fun ho hl => ⟨ho, resolve_of_classify_i hc (ho ▸ hl)⟩
    rcases opcodeOf_of_classify_i hc with ho | ho | ho | ho
    · exact .inl (entry ho rfl)
    · exact .inr (.inl (entry ho rfl))
    · exact .inr (.inr (.inl (entry ho rfl)))
    · exact .inr (.inr (.inr (entry ho rfl)))

/-! ## The opcode map (30_encoding.md R61) -/

theorem OpcodeRow.selects_iff {row : OpcodeRow} {w : Word} :
    row.selects w = true ↔ w &&& row.mask = row.matchBits := beq_iff_eq

/-- Two rows whose match bits agree wherever both masks look are the same row. -/
theorem opcodeMap_eq_of_common_bits : ∀ a ∈ opcodeMap, ∀ b ∈ opcodeMap,
    a.matchBits &&& b.mask = b.matchBits &&& a.mask → a = b := by decide

/-- A word selects at most one row. -/
theorem opcodeMap_eq_of_selects {a b : OpcodeRow} (ha : a ∈ opcodeMap) (hb : b ∈ opcodeMap) {w : Word}
    (hwa : w &&& a.mask = a.matchBits) (hwb : w &&& b.mask = b.matchBits) : a = b := by
  refine opcodeMap_eq_of_common_bits a ha b hb ?_
  rw [← hwa, ← hwb, BitVec.and_assoc, BitVec.and_assoc, BitVec.and_comm a.mask]

/-- A word that matches no row does not decode, since a decoded record is a row its word selects. -/
theorem decode_error_of_no_row {w : Word} (h : ∀ row ∈ opcodeMap, w &&& row.mask ≠ row.matchBits) :
    ∃ e, decode w = .error e := by
  cases hd : decode w with
  | error e => exact ⟨e, rfl⟩
  | ok r =>
    obtain ⟨row, hmem, hs, -⟩ := decode_ok_row hd
    exact absurd (OpcodeRow.selects_iff.mp hs) (h row hmem)

/-- Settles O4: the rows read off the map, two rows never agree on their common mask, and decode answers with a row. -/
theorem opcodeMapRowsAreDisjoint : Obligations.OpcodeMapRowsAreDisjoint := by
  unfold Obligations.OpcodeMapRowsAreDisjoint
  exact ⟨by decide, fun a ha b hb w => opcodeMap_eq_of_selects ha hb, fun w => decode_error_of_no_row⟩

end Sys2Proof
end

section
/-! PROOFS. The fields of a word through their masks: a field is the masked word shifted down, and two fields of one
format share no bit (30_encoding.md R53, R54, R79). -/

namespace Sys2Proof.Machine

/-! ## A field is the masked word shifted down -/

/-- The printed shift and mask of every field. -/
theorem fieldValue_eq_shift_mask (w : Word) (F : FieldName) :
    fieldValue w F = w.toNat >>> fieldLow F &&& (fieldMask F).toNat >>> fieldLow F := by
  cases F with
  | opcode => exact toNat_extractLsb'_eq_shift_mask w 26 6
  | rs => exact toNat_extractLsb'_eq_shift_mask w 21 5
  | rt => exact toNat_extractLsb'_eq_shift_mask w 16 5
  | rd => exact toNat_extractLsb'_eq_shift_mask w 11 5
  | shamt => exact toNat_extractLsb'_eq_shift_mask w 6 5
  | funct => exact toNat_extractLsb'_eq_shift_mask w 0 6
  | imm => exact toNat_extractLsb'_eq_shift_mask w 0 16
  | addr => exact toNat_extractLsb'_eq_shift_mask w 0 26

/-- Masking first and shifting afterwards gives the same value. -/
theorem fieldValue_eq_mask_div (w : Word) (F : FieldName) :
    fieldValue w F = (w &&& fieldMask F).toNat / 2 ^ fieldLow F := by
  rw [fieldValue_eq_shift_mask, ← Nat.shiftRight_and_distrib, ← BitVec.toNat_and, Nat.shiftRight_eq_div_pow]

/-- Settles O2: the shift and mask of each field, and adjacent slices joined. -/
theorem slicesAreShiftAndMask : Obligations.SlicesAreShiftAndMask := by
  unfold Obligations.SlicesAreShiftAndMask
  exact fun w => ⟨fieldValue_eq_shift_mask w .opcode, fieldValue_eq_shift_mask w .rs, fieldValue_eq_shift_mask w .rt,
    fieldValue_eq_shift_mask w .rd, fieldValue_eq_shift_mask w .shamt, fieldValue_eq_shift_mask w .funct,
    fieldValue_eq_shift_mask w .imm, fieldValue_eq_shift_mask w .addr, immOf_eq_append w, addrOf_eq_append w⟩

/-! ## Field isolation (30_encoding.md R79) -/

/-- The eight slices, as a list to compute over. -/
def fieldNames : List FieldName := [.opcode, .rs, .rt, .rd, .shamt, .funct, .imm, .addr]

theorem mem_fieldNames (F : FieldName) : F ∈ fieldNames := by
  cases F <;> decide

/-- Two fields of one format share no bit: the mask of one lies outside the other. -/
theorem fieldMask_disjoint {f : Format} {F G : FieldName} (hF : hasField f F = true) (hG : hasField f G = true)
    (hne : G ≠ F) : ~~~ fieldMask F &&& fieldMask G = fieldMask G := by
  have key : ∀ f ∈ [Format.r, .i, .j, .unrecognized], ∀ F ∈ fieldNames, ∀ G ∈ fieldNames,
      hasField f F = true → hasField f G = true → G ≠ F →
        ~~~ fieldMask F &&& fieldMask G = fieldMask G := by decide
  exact key f (by cases f <;> decide) F (mem_fieldNames F) G (mem_fieldNames G) hF hG hne

/-- Words that differ in one field of a format only have the same value in each other field of the format. -/
theorem fieldValue_congr_of_agree_off {f : Format} {F G : FieldName} {w w' : Word} (hF : hasField f F = true)
    (hG : hasField f G = true) (hne : G ≠ F) (h : w &&& ~~~ fieldMask F = w' &&& ~~~ fieldMask F) :
    fieldValue w G = fieldValue w' G := by
  have hmask : w &&& fieldMask G = w' &&& fieldMask G := by
    rw [← fieldMask_disjoint hF hG hne, ← BitVec.and_assoc, h, BitVec.and_assoc]
  rw [fieldValue_eq_mask_div, hmask, ← fieldValue_eq_mask_div]

/-- Words that agree in opcode and, where their format has one, in funct resolve alike. -/
theorem resolve_congr_of_selectors {w w' : Word} (ho : opcodeOf w = opcodeOf w')
    (hf : hasField (classify w) .funct = true → functOf w = functOf w') :
    (resolve w).toOption = (resolve w').toOption := by
  have hc' : classify w' = classify w := (classify_congr ho).symm
  cases hc : classify w with
  | r => exact resolve_congr ho (hf (by rw [hc]; rfl))
  | i =>
    rw [resolve, resolve, hc', hc, ho]
    cases formatITable.lookup (opcodeOf w') <;> rfl
  | j => rw [resolve_of_classify_j hc, resolve_of_classify_j (hc'.trans hc)]
  | unrecognized =>
    rw [resolve, resolve, hc', hc]
    rfl

/-- Words that agree in the selectors of their format decode to the same kind and mnemonic. -/
theorem decode_congr_of_selectors {w w' : Word} {r r' : Record} (h : decode w = .ok r) (h' : decode w' = .ok r')
    (ho : opcodeOf w = opcodeOf w') (hf : hasField r.format .funct = true → functOf w = functOf w') :
    r.kind = r'.kind ∧ r.mnemonic = r'.mnemonic := by
  obtain ⟨f, k, m, hr, rfl⟩ := decode_ok_iff.mp h
  obtain ⟨f', k', m', hr', rfl⟩ := decode_ok_iff.mp h'
  have heq := resolve_congr_of_selectors ho (by rwa [classify_of_resolve_ok hr])
  rw [hr, hr'] at heq
  cases heq
  exact ⟨rfl, rfl⟩

/-- Every format that decode delivers has an opcode. -/
theorem hasField_opcode_of_decode_ok {w : Word} {r : Record} (h : decode w = .ok r) :
    hasField r.format .opcode = true := by
  obtain ⟨row, hmem, -, rfl⟩ := decode_ok_row h
  have key : ∀ row ∈ opcodeMap, hasField row.format .opcode = true := by decide
  exact key row hmem

/-- Settles O9: the fields read off the definitions; a field that is not a selector shares no bit with the selectors of
its format nor with another field of it. -/
theorem changingOneFieldChangesOnlyThatField : Obligations.ChangingOneFieldChangesOnlyThatField := by
  unfold Obligations.ChangingOneFieldChangesOnlyThatField
  refine ⟨by decide, fun w k m => ⟨rfl, rfl, rfl⟩, fun w w' r r' F h h' _ hF hop hfu hagree => ?_, by decide⟩
  have isolated : ∀ G, hasField r.format G = true → G ≠ F → fieldValue w G = fieldValue w' G :=
    fun G hG hne => fieldValue_congr_of_agree_off hF hG hne hagree
  have ho : opcodeOf w = opcodeOf w' :=
    BitVec.eq_of_toNat_eq (isolated .opcode (hasField_opcode_of_decode_ok h) hop.symm)
  have hf : hasField r.format .funct = true → functOf w = functOf w' :=
    fun hG => BitVec.eq_of_toNat_eq (isolated .funct hG hfu.symm)
  obtain ⟨hkind, hmnem⟩ := decode_congr_of_selectors h h' ho hf
  exact ⟨hkind, hmnem, isolated, fieldValue_eq_mask_div w' F⟩

end Sys2Proof.Machine
end

section
/-! PROOFS. Which opcodes and functs decode and which raise each error, and how many words carry them
(30_encoding.md R66; 40_decode_algorithm.md R75). -/

namespace Sys2Proof

/-! ## The outcome of decode in terms of opcode and funct -/

theorem decode_unrecognizedFormat_iff {w : Word} :
    decode w = .error (.unrecognizedFormat w) ↔ opcodeOf w ∉ [0#6, 2, 4, 5, 8, 9] := by
  refine ⟨fun h => ?_, fun h => decode_error_iff.mpr (classify_resolve_of_opcode_notMem h).2⟩
  have h := decode_error_iff.mp h
  rcases resolve_cases w with ⟨_, k, m, _, hr⟩ | ⟨k, m, _, hr⟩ | ⟨_, hr⟩ | ⟨hne, _⟩ | ⟨_, _, hr⟩
  · simp [hr] at h
  · simp [hr] at h
  · simp [hr] at h
  · simpa using hne
  · simp [hr] at h

theorem decode_unsupportedFunct_iff {w : Word} :
    decode w = .error (.unsupportedFunct w) ↔ opcodeOf w = 0 ∧ functOf w ∉ [0#6, 2, 8, 32, 33, 34, 35] := by
  refine ⟨fun h => ?_, fun ⟨ho, hf⟩ => decode_error_iff.mpr (classify_resolve_of_funct_notMem ho hf).2⟩
  have h := decode_error_iff.mp h
  rcases resolve_cases w with ⟨_, k, m, _, hr⟩ | ⟨k, m, _, hr⟩ | ⟨_, hr⟩ | ⟨_, hr⟩ | ⟨ho, hne, _⟩
  · simp [hr] at h
  · simp [hr] at h
  · simp [hr] at h
  · simp [hr] at h
  · exact ⟨ho, by simpa [functTable] using hne⟩

/-- A word decodes exactly when it raises neither error. -/
theorem decode_ok_iff_selectors {w : Word} : (∃ r, decode w = .ok r) ↔
    opcodeOf w = 0 ∧ functOf w ∈ [0#6, 2, 8, 32, 33, 34, 35] ∨ opcodeOf w ∈ [2#6, 4, 5, 8, 9] := by
  have hok : (∃ r, decode w = .ok r) ↔
      ¬ decode w = .error (.unrecognizedFormat w) ∧ ¬ decode w = .error (.unsupportedFunct w) := by
    cases h : decode w with
    | ok r => simp
    | error e =>
      rcases error_of_resolve_error (decode_error_iff.mp h) with rfl | rfl
      · simp
      · simp
  rw [hok, decode_unrecognizedFormat_iff, decode_unsupportedFunct_iff, List.mem_cons]
  have hne : opcodeOf w = 0 → opcodeOf w ∉ [2#6, 4, 5, 8, 9] := fun h => by rw [h]; decide
  tauto

/-! ## Counting words by opcode and funct -/

/-- A word is its two selectors and the 20 bits between them. -/
def selectorsEquiv : Word ≃ (BitVec 6 × BitVec 6) × BitVec 20 where
  toFun w := ((opcodeOf w, functOf w), w.extractLsb' 6 20)
  invFun x := x.1.1 ++ x.2 ++ x.1.2
  left_inv w := by
    change opcodeOf w ++ w.extractLsb' 6 20 ++ functOf w = w
    rw [opcodeOf, functOf, extract_join w 6 20 6, extract_join w 0 6 26]
    exact BitVec.extractLsb'_eq_self
  right_inv := fun ⟨⟨op, f⟩, mid⟩ => by
    have hop : opcodeOf (op ++ mid ++ f) = op :=
      (extract_append_high 20 6 _ f).trans ((extract_append_high 0 6 _ mid).trans BitVec.extractLsb'_eq_self)
    have hmid : (op ++ mid ++ f).extractLsb' 6 20 = mid :=
      (extract_append_high 0 20 _ f).trans (extract_append_low _ mid)
    have hf : functOf (op ++ mid ++ f) = f := extract_append_low _ f
    change ((opcodeOf (op ++ mid ++ f), functOf (op ++ mid ++ f)), (op ++ mid ++ f).extractLsb' 6 20) = _
    rw [hop, hmid, hf]

theorem natCard_bitVec (n : Nat) : Nat.card (BitVec n) = 2 ^ n := by
  rw [Nat.card_congr BitVec.equivFin.toEquiv, Nat.card_fin]

/-- Each pair of selectors stands in 2^20 words. -/
theorem natCard_words_of_selectors {p : Word → Prop} (S : Finset (BitVec 6 × BitVec 6))
    (hp : ∀ w, p w ↔ (opcodeOf w, functOf w) ∈ S) : Nat.card { w // p w } = S.card * 2 ^ 20 := by
  have e : { w // p w } ≃ S × BitVec 20 :=
    (Equiv.subtypeEquiv selectorsEquiv hp).trans Equiv.prodSubtypeFstEquivSubtypeProd
  rw [Nat.card_congr e, Nat.card_prod, Nat.card_eq_finsetCard, natCard_bitVec]

/-- Format R decodes with 7 functs; opcode 2 and the four opcodes of format I with every funct. -/
def decodingSelectors : Finset (BitVec 6 × BitVec 6) :=
  {0} ×ˢ {0, 2, 8, 32, 33, 34, 35} ∪ {2, 4, 5, 8, 9} ×ˢ Finset.univ

/-- The other 58 opcodes, with every funct. -/
def unrecognizedSelectors : Finset (BitVec 6 × BitVec 6) := {0, 2, 4, 5, 8, 9}ᶜ ×ˢ Finset.univ

/-- Opcode 0 with one of the other 57 functs. -/
def unsupportedSelectors : Finset (BitVec 6 × BitVec 6) := {0} ×ˢ {0, 2, 8, 32, 33, 34, 35}ᶜ

theorem card_univ_bitVec6 : (Finset.univ : Finset (BitVec 6)).card = 64 := rfl

theorem card_decodingSelectors : decodingSelectors.card = 1 * 7 + 5 * 64 := by
  rw [decodingSelectors, Finset.card_union_of_disjoint, Finset.card_product, Finset.card_product, card_univ_bitVec6]
  · rfl
  · exact Finset.disjoint_product.mpr (.inl (by decide))

theorem card_unrecognizedSelectors : unrecognizedSelectors.card = 58 * 64 := by
  rw [unrecognizedSelectors, Finset.card_product, card_univ_bitVec6]
  rfl

theorem card_unsupportedSelectors : unsupportedSelectors.card = 1 * 57 := by
  rw [unsupportedSelectors, Finset.card_product]
  rfl

theorem natCard_decoding_words : Nat.card { w : Word // ∃ r, decode w = .ok r } = (1 * 7 + 5 * 64) * 2 ^ 20 := by
  rw [← card_decodingSelectors]
  exact natCard_words_of_selectors _ fun w => by
    simp [decode_ok_iff_selectors, decodingSelectors, -Finset.singleton_product]

theorem natCard_unrecognized_words :
    Nat.card { w : Word // decode w = .error (.unrecognizedFormat w) } = 58 * 64 * 2 ^ 20 := by
  rw [← card_unrecognizedSelectors]
  exact natCard_words_of_selectors _ fun w => by simp [decode_unrecognizedFormat_iff, unrecognizedSelectors]

theorem natCard_unsupported_words :
    Nat.card { w : Word // decode w = .error (.unsupportedFunct w) } = 1 * 57 * 2 ^ 20 := by
  rw [← card_unsupportedSelectors]
  exact natCard_words_of_selectors _ fun w => by
    simp [decode_unsupportedFunct_iff, unsupportedSelectors, -Finset.singleton_product]

/-- Settles O12: 327, 3712 and 57 pairs of selectors, each in 2^20 words. -/
theorem countsOfValidAndInvalidWords : Obligations.CountsOfValidAndInvalidWords := by
  unfold Obligations.CountsOfValidAndInvalidWords
  exact ⟨natCard_decoding_words, natCard_unrecognized_words, natCard_unsupported_words, by decide⟩

end Sys2Proof
end

section
/-! PROOFS. The whole decode function: the pseudocode, the two errors, and the flat table of match and mask
(40_decode_algorithm.md R74 to R78). -/

namespace Sys2Proof

/-! ## The pseudocode (40_decode_algorithm.md R74) -/

/-- A word that resolves decodes to the record of what it resolves to. -/
theorem decode_of_resolve_ok {w : Word} {f : Format} {k : Kind} {m : Mnemonic} (h : resolve w = .ok (f, k, m)) :
    decode w = .ok ⟨w, f, k, m.text⟩ :=
  decode_ok_iff.mpr ⟨f, k, m, h, rfl⟩

/-- Settles O5: every answer of `resolve` fixes the selectors that the pseudocode tests. -/
theorem decodeFollowsPseudocode : Obligations.DecodeFollowsPseudocode := by
  unfold Obligations.DecodeFollowsPseudocode
  intro w
  rw [← opcodeOf, ← functOf]
  rcases resolve_cases w with ⟨ho, k, m, hm, hr⟩ | ⟨k, m, hm, hr⟩ | ⟨ho, hr⟩ | ⟨ho, hr⟩ | ⟨ho, hf, hr⟩
  · rw [decode_of_resolve_ok hr, ho]
    simp only [functTable, List.mem_cons, Prod.mk.injEq, List.not_mem_nil, or_false] at hm
    rcases hm with ⟨hf, rfl, rfl⟩ | ⟨hf, rfl, rfl⟩ | ⟨hf, rfl, rfl⟩ | ⟨hf, rfl, rfl⟩ | ⟨hf, rfl, rfl⟩ |
      ⟨hf, rfl, rfl⟩ | ⟨hf, rfl, rfl⟩ <;>
    · rw [hf]
      rfl
  · rw [decode_of_resolve_ok hr]
    simp only [formatITable, List.mem_cons, Prod.mk.injEq, List.not_mem_nil, or_false] at hm
    rcases hm with ⟨ho, rfl, rfl⟩ | ⟨ho, rfl, rfl⟩ | ⟨ho, rfl, rfl⟩ | ⟨ho, rfl, rfl⟩ <;>
    · rw [ho]
      rfl
  · rw [decode_of_resolve_ok hr, ho]
    rfl
  · rw [decode_error_iff.mpr hr]
    simp only [ho, or_self, if_false]
  · rw [decode_error_iff.mpr hr]
    simp only [functTable, List.forall_mem_cons] at hf
    simp only [ho, hf, if_true, if_false]

/-! ## The two errors (40_decode_algorithm.md R75) -/

/-- An error of `decode` is one of two and holds the word decoded. -/
theorem error_of_decode_error {w : Word} {e : Error} (h : decode w = .error e) :
    e = .unrecognizedFormat w ∨ e = .unsupportedFunct w :=
  error_of_resolve_error (decode_error_iff.mp h)

theorem exists_decode_unrecognizedFormat_iff {w : Word} :
    (∃ w', decode w = .error (.unrecognizedFormat w')) ↔ opcodeOf w ∉ [0#6, 2, 4, 5, 8, 9] := by
  refine ⟨fun ⟨w', h⟩ => ?_, fun h => ⟨w, decode_unrecognizedFormat_iff.mpr h⟩⟩
  rcases error_of_decode_error h with he | he <;> cases he
  exact decode_unrecognizedFormat_iff.mp h

theorem exists_decode_unsupportedFunct_iff {w : Word} :
    (∃ w', decode w = .error (.unsupportedFunct w')) ↔
      opcodeOf w = 0 ∧ functOf w ∉ [0#6, 2, 8, 32, 33, 34, 35] := by
  refine ⟨fun ⟨w', h⟩ => ?_, fun h => ⟨w, decode_unsupportedFunct_iff.mpr h⟩⟩
  rcases error_of_decode_error h with he | he <;> cases he
  exact decode_unsupportedFunct_iff.mp h

/-- Settles O6: the error names its word, so each condition is that of the error; opcode 0 is no bad opcode. -/
theorem eachBadWordReportsOneError : Obligations.EachBadWordReportsOneError := by
  unfold Obligations.EachBadWordReportsOneError
  refine ⟨fun w => ⟨exists_decode_unrecognizedFormat_iff, exists_decode_unsupportedFunct_iff,
    fun e => error_of_decode_error, fun ⟨hop, ho, _⟩ => hop ?_⟩, decode_unrecognizedFormat_iff.mpr (by decide)⟩
  rw [ho]
  exact List.mem_cons_self

/-- Of a word that does not decode, the opcode alone says which error it reports. -/
theorem decode_error_eq_ite {w : Word} {e : Error} (h : decode w = .error e) :
    e = if opcodeOf w = 0 then .unsupportedFunct w else .unrecognizedFormat w := by
  rcases error_of_decode_error h with rfl | rfl
  · have hne : opcodeOf w ≠ 0 := fun ho => decode_unrecognizedFormat_iff.mp h (by rw [ho]; exact List.mem_cons_self)
    rw [if_neg hne]
  · rw [if_pos (decode_unsupportedFunct_iff.mp h).1]

/-! ## The flat table (40_decode_algorithm.md R76, R78) -/

/-- The mask of every row keeps the whole opcode, and the whole funct where the row's format has one. -/
theorem opcodeMap_mask_selectors : ∀ row ∈ opcodeMap, opcodeOf row.mask = BitVec.allOnes 6 ∧
    (Machine.hasField row.format .funct = true → functOf row.mask = BitVec.allOnes 6) := by decide

/-- The match bits of every row, its word with all free bits zero, resolve to the row. -/
theorem opcodeMap_resolve_matchBits : ∀ row ∈ opcodeMap,
    resolve row.matchBits = .ok (row.format, row.kind, row.mnemonic) := by decide

/-- A slice that a mask keeps whole is not changed by the mask. -/
theorem extractLsb'_and_of_allOnes {w mask : Word} {s l : Nat} (h : mask.extractLsb' s l = BitVec.allOnes l) :
    (w &&& mask).extractLsb' s l = w.extractLsb' s l := by
  rw [BitVec.extractLsb'_and, h, BitVec.and_allOnes]

/-- A word that a row selects has the selectors of the row's match bits, so it resolves to the row. -/
theorem resolve_of_selects {row : OpcodeRow} (hmem : row ∈ opcodeMap) {w : Word}
    (h : w &&& row.mask = row.matchBits) : resolve w = .ok (row.format, row.kind, row.mnemonic) := by
  obtain ⟨hmaskOp, hmaskFunct⟩ := opcodeMap_mask_selectors row hmem
  have hrow := opcodeMap_resolve_matchBits row hmem
  have ho : opcodeOf row.matchBits = opcodeOf w := h ▸ extractLsb'_and_of_allOnes hmaskOp
  have hf : Machine.hasField (classify row.matchBits) .funct = true → functOf row.matchBits = functOf w := by
    rw [classify_of_resolve_ok hrow]
    exact fun hfunct => h ▸ extractLsb'_and_of_allOnes (hmaskFunct hfunct)
  have heq := Machine.resolve_congr_of_selectors ho hf
  rw [hrow] at heq
  cases hw : resolve w with
  | ok x =>
    rw [hw] at heq
    cases heq
    rfl
  | error e =>
    rw [hw] at heq
    cases heq

/-- Settles O8: a word that a row selects resolves to it. -/
theorem everyMatchingWordDecodesToItsRow : Obligations.EveryMatchingWordDecodesToItsRow := by
  unfold Obligations.EveryMatchingWordDecodesToItsRow
  exact fun row hmem w h => decode_of_resolve_ok (resolve_of_selects hmem h)

/-- The row that the table search answers is one of the twelve and matches. -/
theorem selectRow_some {w : Word} {row : OpcodeRow} (h : selectRow w = some row) :
    row ∈ opcodeMap ∧ w &&& row.mask = row.matchBits := by
  rw [selectRow] at h
  have hs := List.find?_some h
  exact ⟨List.mem_of_find?_eq_some h, OpcodeRow.selects_iff.mp hs⟩

/-- A word that selects no row does not decode, and its opcode says which error it reports. -/
theorem decode_of_selectRow_none {w : Word} (h : selectRow w = none) :
    decode w = .error (if opcodeOf w = 0 then .unsupportedFunct w else .unrecognizedFormat w) := by
  obtain ⟨e, he⟩ := decode_error_of_no_row fun row hmem hw =>
    List.find?_eq_none.mp h row hmem (OpcodeRow.selects_iff.mpr hw)
  rw [he, decode_error_eq_ite he]

/-- Settles O7: by whether the word selects a row. -/
theorem twoLevelDecodeEqualsFlatTable : Obligations.TwoLevelDecodeEqualsFlatTable := by
  unfold Obligations.TwoLevelDecodeEqualsFlatTable
  intro w
  cases h : selectRow w with
  | some row =>
    obtain ⟨hmem, hmatch⟩ := selectRow_some h
    exact decode_of_resolve_ok (resolve_of_selects hmem hmatch)
  | none => exact (decode_of_selectRow_none h).trans (apply_ite Except.error _ _ _)

end Sys2Proof
end

section
/-! PROOFS. The sequence decode: its records are those of its words, and its failure is the first of a word
(40_decode_algorithm.md R80). -/

namespace Sys2Proof.Machine

/-! ## One word of the sequence -/

/-- The word at an offset, read and decoded on its own. -/
def decodeAt (p : Params) (buf : Option Memory) (o : Nat) : Except Error Record :=
  readWord p buf o >>= decode

section
variable {p : Params} {buf : Option Memory} {s : Nat}

theorem decodeAt_ok_iff {o : Nat} {r : Record} :
    decodeAt p buf o = .ok r ↔ ∃ w, readWord p buf o = .ok w ∧ decode w = .ok r := by
  cases h : readWord p buf o <;> simp [decodeAt, h, bind, Except.bind]

theorem exists_decodeAt_ok_iff {o : Nat} :
    (∃ r, decodeAt p buf o = .ok r) ↔ ∃ w r, readWord p buf o = .ok w ∧ decode w = .ok r := by
  simp only [decodeAt_ok_iff]
  exact exists_comm

theorem decodeAt_error_iff {o : Nat} {e : Error} : decodeAt p buf o = .error e ↔
    readWord p buf o = .error e ∨ ∃ w, readWord p buf o = .ok w ∧ decode w = .error e := by
  cases h : readWord p buf o <;> simp [decodeAt, h, bind, Except.bind]

/-! ## The sequence, word by word -/

theorem decodeFrom_succ_of_error {i : Nat} {e : Error} (h : decodeAt p buf (s + 4 * i) = .error e) (n : Nat) :
    decodeFrom p buf s i (n + 1) = .error ⟨e, i, some (s + 4 * i)⟩ := by
  rcases decodeAt_error_iff.mp h with hr | ⟨w, hr, hd⟩
  · simp [decodeFrom, hr]
  · simp [decodeFrom, hr, hd]

theorem decodeFrom_succ_of_ok {i : Nat} {r : Record} (h : decodeAt p buf (s + 4 * i) = .ok r) (n : Nat) :
    decodeFrom p buf s i (n + 1) = (decodeFrom p buf s (i + 1) n).map (r :: ·) := by
  obtain ⟨w, hr, hd⟩ := decodeAt_ok_iff.mp h
  simp only [decodeFrom, hr, hd]
  cases decodeFrom p buf s (i + 1) n <;> rfl

theorem decodeFrom_succ_ok_iff {i n : Nat} {rs : List Record} : decodeFrom p buf s i (n + 1) = .ok rs ↔
    ∃ r rs', decodeAt p buf (s + 4 * i) = .ok r ∧ decodeFrom p buf s (i + 1) n = .ok rs' ∧ rs = r :: rs' := by
  cases h : decodeAt p buf (s + 4 * i) with
  | error e => simp [decodeFrom_succ_of_error h]
  | ok r =>
    rw [decodeFrom_succ_of_ok h]
    cases decodeFrom p buf s (i + 1) n <;> simp [Except.map, eq_comm]

theorem decodeFrom_succ_error_iff {i n : Nat} {rep : ErrorReport} : decodeFrom p buf s i (n + 1) = .error rep ↔
    (∃ e, decodeAt p buf (s + 4 * i) = .error e ∧ rep = ⟨e, i, some (s + 4 * i)⟩) ∨
      (∃ r, decodeAt p buf (s + 4 * i) = .ok r) ∧ decodeFrom p buf s (i + 1) n = .error rep := by
  cases h : decodeAt p buf (s + 4 * i) with
  | error e => simp [decodeFrom_succ_of_error h, eq_comm]
  | ok r =>
    rw [decodeFrom_succ_of_ok h]
    cases decodeFrom p buf s (i + 1) n <;> simp [Except.map]

/-- The records of the words `i` to `i + n - 1` are those of the words one by one. -/
theorem decodeFrom_ok_iff {i n : Nat} {rs : List Record} : decodeFrom p buf s i n = .ok rs ↔
    List.Forall₂ (fun j r => decodeAt p buf (s + 4 * j) = .ok r) (List.range' i n) rs := by
  induction n generalizing i rs with
  | zero => simp [decodeFrom, eq_comm]
  | succ n ih => simp only [decodeFrom_succ_ok_iff, List.range'_succ, List.forall₂_cons_left_iff, ih]

/-- The report is that of a word that fails, at its own index and offset, while every word before it decodes. -/
def IsFirstFailure (p : Params) (buf : Option Memory) (s i n : Nat) (rep : ErrorReport) : Prop :=
  (i ≤ rep.index ∧ rep.index < i + n) ∧ rep.byteOffset = some (s + 4 * rep.index) ∧
    decodeAt p buf (s + 4 * rep.index) = .error rep.error ∧
    ∀ j, i ≤ j → j < rep.index → ∃ r, decodeAt p buf (s + 4 * j) = .ok r

/-- The first failure of the words from `i` on is word `i`'s, or word `i` decodes and it is that of the rest. -/
theorem isFirstFailure_succ_iff {i n : Nat} {rep : ErrorReport} : IsFirstFailure p buf s i (n + 1) rep ↔
    (∃ e, decodeAt p buf (s + 4 * i) = .error e ∧ rep = ⟨e, i, some (s + 4 * i)⟩) ∨
      (∃ r, decodeAt p buf (s + 4 * i) = .ok r) ∧ IsFirstFailure p buf s (i + 1) n rep := by
  constructor
  · rintro ⟨⟨hle, hlt⟩, hoff, herr, hbefore⟩
    rcases hle.eq_or_lt with rfl | hlt'
    · exact .inl ⟨rep.error, herr, by rw [← hoff]⟩
    · exact .inr ⟨hbefore i le_rfl hlt', ⟨hlt', by omega⟩, hoff, herr, fun j hj => hbefore j (by omega)⟩
  · rintro (⟨e, herr, rfl⟩ | ⟨hok, ⟨hle, hlt⟩, hoff, herr, hbefore⟩)
    · exact ⟨⟨le_rfl, Nat.lt_add_of_pos_right n.succ_pos⟩, rfl, herr, fun j hij hji => absurd hji (not_lt.mpr hij)⟩
    · refine ⟨⟨by omega, by omega⟩, hoff, herr, fun j hij hj => ?_⟩
      rcases hij.eq_or_lt with rfl | hij'
      · exact hok
      · exact hbefore j hij' hj

theorem decodeFrom_error_iff {i n : Nat} {rep : ErrorReport} :
    decodeFrom p buf s i n = .error rep ↔ IsFirstFailure p buf s i n rep := by
  induction n generalizing i with
  | zero =>
    have hempty : ¬ IsFirstFailure p buf s i 0 rep := fun ⟨⟨hle, hlt⟩, _⟩ => absurd hlt (not_lt.mpr hle)
    simp [decodeFrom, hempty]
  | succ n ih => rw [decodeFrom_succ_error_iff, isFirstFailure_succ_iff, ih]

/-- The records of a whole call, by index (40_decode_algorithm.md R80). -/
theorem decodeAll_ok_iff {n : Nat} {rs : List Record} : decodeAll p buf s n = .ok rs ↔
    rs.length = n ∧ ∀ i (h : i < rs.length), decodeAt p buf (s + 4 * i) = .ok rs[i] := by
  rw [decodeAll, decodeFrom_ok_iff, List.forall₂_iff_get]
  simp only [List.length_range', List.get_eq_getElem, List.getElem_range', Nat.zero_add, Nat.one_mul]
  constructor
  · rintro ⟨hlen, hall⟩
    exact ⟨hlen.symm, fun i h => hall i (hlen ▸ h) h⟩
  · rintro ⟨hlen, hall⟩
    exact ⟨hlen.symm, fun i _ h => hall i h⟩

end

/-- Settles O38: by induction on the count, the records are those of the words, and a failure is the first one. -/
theorem sequenceDecodeIsWordByWord : Obligations.SequenceDecodeIsWordByWord := by
  unfold Obligations.SequenceDecodeIsWordByWord
  refine fun p buf s n => ⟨fun rs => ?_, fun rep => ?_⟩
  · simp only [decodeAll_ok_iff, decodeAt_ok_iff]
  · simp only [decodeAll, decodeFrom_error_iff, IsFirstFailure, exists_decodeAt_ok_iff, decodeAt_error_iff,
      Nat.zero_le, true_and, Nat.zero_add, forall_const]

end Sys2Proof.Machine
end

section
/-! PROOFS. The format R family: what a word of one of its rows decodes to, the line or the error of each of its
templates, and the record that each of its instructions delivers (41_r_format.md R81 to R88). -/

namespace Sys2Proof

/-- The word of an instruction decodes to the instruction's record, since it selects the instruction's row. -/
theorem decode_encode (i : Instr) : decode (encode i) = .ok i.record := by
  obtain ⟨-, row, hmem, hm, hf, hk, hs⟩ := encode_selects_row i
  rw [decode_of_resolve_ok (resolve_of_selects hmem (OpcodeRow.selects_iff.mp hs)), hm, hf, hk, Instr.record]

end Sys2Proof

namespace Sys2Proof.Machine

/-! ## The words of a format R row -/

/-- The format R rows of the opcode map: match bits, kind and mnemonic. Their mask is one and the same. -/
def rowsR : List (Word × Kind × String) :=
  (opcodeMap.filter (·.format = .r)).map fun row => (row.matchBits, row.kind, row.mnemonic.text)

theorem opcodeMap_mask_r : ∀ row ∈ opcodeMap, row.format = .r → row.mask = 0xFC00003F := by decide

/-- A word of a format R row decodes to the row and has the row's funct; its other fields are its slices. -/
theorem decode_fields_of_mem_rowsR {b : Word} {k : Kind} {m : String} (hrow : (b, k, m) ∈ rowsR) {w : Word}
    (h : w &&& 0xFC00003F = b) :
    decode w = .ok ⟨w, .r, k, m⟩ ∧
      recordFields ⟨w, .r, k, m⟩ = some (.r (rsOf w) (rtOf w) (rdOf w) (shamtOf w) (functOf b)) := by
  obtain ⟨row, hmem, heq⟩ := List.mem_map.mp hrow
  obtain ⟨hmem, hr⟩ := List.mem_filter.mp hmem
  have hr := of_decide_eq_true hr
  cases heq
  have hd := decode_of_resolve_ok (resolve_of_selects hmem (opcodeMap_mask_r row hmem hr ▸ h))
  have hf : functOf row.matchBits = functOf w := h ▸ extractLsb'_and_of_allOnes (by decide)
  rw [hr] at hd
  exact ⟨hd, hf ▸ rfl⟩

/-! ## The operands from left to right (45_disassembler.md R98, R104, R109) -/

section
variable {p : Params} {w : Word}

theorem renderOperands_nil : renderOperands p w [] = .ok [] := rfl

/-- A register operand: its index's name, or the error of an index without one, which hides the operands after it. -/
theorem renderOperands_reg (role : RegRole) (os : List OperandForm) :
    renderOperands p w (.reg role :: os) =
      match regName p (roleIndex w role) with
      | none => .error (.unsupportedRegister (roleIndex w role))
      | some n => (renderOperands p w os).map (("$" ++ n) :: ·) := by
  simp only [renderOperands, renderOperand, renderReg]
  cases regName p (roleIndex w role) with
  | none => rfl
  | some n => cases renderOperands p w os <;> rfl

theorem renderOperands_shamt (os : List OperandForm) :
    renderOperands p w (.shamtDecimal :: os) =
      (renderOperands p w os).map (String.ofList (Nat.toDigits 10 (shamtOf w).toNat) :: ·) := by
  simp only [renderOperands, renderOperand, renderDec_eq _ (shamtOf w).isLt]
  cases renderOperands p w os <;> rfl

/-- With a template, the line is the mnemonic and the operands, and an error is that of the operands. -/
theorem render_of_template {f : Format} {k : Kind} {t : List OperandForm} (ht : template f k = some t) (m : String) :
    render p ⟨w, f, k, m⟩ = (renderOperands p w t).map (m ++ " " ++ joinOperands ·) := by
  simp only [render, ht]
  cases renderOperands p w t <;> rfl

/-! ## The three templates of format R (45_disassembler.md R99) -/

variable {f : Format} {k : Kind}

/-- The template `rs, rt, rd`: the first register without a name is the error. -/
theorem render_rs_rt_rd (ht : template f k = some [.reg .rs, .reg .rt, .reg .rd]) (p : Params) (w : Word)
    (m : String) : render p ⟨w, f, k, m⟩ =
      match regName p (rsOf w), regName p (rtOf w), regName p (rdOf w) with
      | none, _, _ => .error (.unsupportedRegister (rsOf w))
      | some _, none, _ => .error (.unsupportedRegister (rtOf w))
      | some _, some _, none => .error (.unsupportedRegister (rdOf w))
      | some a, some b, some c => .ok (m ++ " " ++ "$" ++ a ++ ", " ++ "$" ++ b ++ ", " ++ "$" ++ c) := by
  simp only [render_of_template ht, renderOperands_reg, renderOperands_nil, roleIndex]
  cases regName p (rsOf w) with
  | none => rfl
  | some a =>
    cases regName p (rtOf w) with
    | none => rfl
    | some b =>
      cases regName p (rdOf w) with
      | none => rfl
      | some c => simp only [Except.map, joinOperands, String.append_assoc]

/-- The template `rs, rt, shamt`: `rd` is not looked up. -/
theorem render_rs_rt_shamt (ht : template f k = some [.reg .rs, .reg .rt, .shamtDecimal]) (p : Params) (w : Word)
    (m : String) : render p ⟨w, f, k, m⟩ =
      match regName p (rsOf w), regName p (rtOf w) with
      | none, _ => .error (.unsupportedRegister (rsOf w))
      | some _, none => .error (.unsupportedRegister (rtOf w))
      | some a, some b => .ok (m ++ " " ++ "$" ++ a ++ ", " ++ "$" ++ b ++ ", " ++
          String.ofList (Nat.toDigits 10 (shamtOf w).toNat)) := by
  simp only [render_of_template ht, renderOperands_reg, renderOperands_shamt, renderOperands_nil, roleIndex]
  cases regName p (rsOf w) with
  | none => rfl
  | some a =>
    cases regName p (rtOf w) with
    | none => rfl
    | some b => simp only [Except.map, joinOperands, String.append_assoc]

/-- The template `rs`: `rt`, `rd` and `shamt` are not looked at. -/
theorem render_rs (ht : template f k = some [.reg .rs]) (p : Params) (w : Word) (m : String) :
    render p ⟨w, f, k, m⟩ =
      match regName p (rsOf w) with
      | none => .error (.unsupportedRegister (rsOf w))
      | some a => .ok (m ++ " " ++ "$" ++ a) := by
  simp only [render_of_template ht, renderOperands_reg, renderOperands_nil, roleIndex]
  cases regName p (rsOf w) with
  | none => rfl
  | some a => simp only [Except.map, joinOperands, String.append_assoc]

end

/-- Settles O15: four rows of the opcode map, under the template `rs, rt, rd`. -/
theorem addSubWordsDecodeAndRender : Obligations.AddSubWordsDecodeAndRender := by
  unfold Obligations.AddSubWordsDecodeAndRender
  refine ⟨fun row hmem => ?_, by decide⟩
  obtain ⟨hrow, ht⟩ : row ∈ rowsR ∧ template .r row.2.1 = some [.reg .rs, .reg .rt, .reg .rd] := by
    revert row
    decide
  intro w hw
  obtain ⟨hd, hf⟩ := decode_fields_of_mem_rowsR hrow hw
  exact ⟨hd, hf, fun p => render_rs_rt_rd ht p w row.2.2⟩

/-- Settles O16: two rows of the opcode map, under the template `rs, rt, shamt`. -/
theorem shiftWordsDecodeAndRender : Obligations.ShiftWordsDecodeAndRender := by
  unfold Obligations.ShiftWordsDecodeAndRender
  refine ⟨fun row hmem => ?_, by decide⟩
  have hrow : (row.1, .shift, row.2) ∈ rowsR := by
    revert row
    decide
  intro w hw
  obtain ⟨hd, hf⟩ := decode_fields_of_mem_rowsR hrow hw
  exact ⟨hd, hf, fun p => render_rs_rt_shamt template_r_shift p w row.2⟩

/-- Settles O17: the row of `jr` in the opcode map, under the template `rs`. -/
theorem jumpRegisterWordsDecodeAndRender : Obligations.JumpRegisterWordsDecodeAndRender := by
  unfold Obligations.JumpRegisterWordsDecodeAndRender
  have hrow : (8, .jump, "jr") ∈ rowsR := by decide
  refine ⟨fun w hw => ?_, by decide⟩
  obtain ⟨hd, hf⟩ := decode_fields_of_mem_rowsR hrow hw
  exact ⟨hd, hf, fun p => render_rs template_r_jump p w "jr"⟩

/-! ## The instructions of format R -/

/-- A format R instruction completes in every state: its record and its word are delivered, nothing else changes, and
the record holds the operands and is what decode makes of its word. -/
theorem exec_delivers_record_r {i : Instr} {rs rt rd : RegIndex} {sh : Shamt} {f : BitVec 6} (hfmt : i.format = .r)
    (henc : encode i = encodeR rs rt rd sh f) (s : State) :
    ∃ r : Record, exec i s = .next { s with word := some r.raw, records := s.records ++ [r] } ∧
      r.format = .r ∧ r.kind = i.kind ∧ r.mnemonic = i.mnemonic.text ∧
      r.raw.extractLsb' 26 6 = 0#6 ∧ recordFields r = some (.r rs rt rd sh f) ∧ decode r.raw = .ok r := by
  have hop : opcodeOf i.record.raw = 0 := by rw [Instr.record, henc, opcodeOf_encodeR]
  have hfields : recordFields i.record = some (.r rs rt rd sh f) := by
    simp [recordFields, Instr.record, hfmt, henc]
  exact ⟨i.record, exec_eq_deliver i s, hfmt, rfl, rfl, hop, hfields, decode_encode i⟩

/-- Settles O21: four instructions of format R. -/
theorem addSubInstructionsDeliverTheirRecords : Obligations.AddSubInstructionsDeliverTheirRecords := by
  unfold Obligations.AddSubInstructionsDeliverTheirRecords
  intro rs rt rd shamt s
  simp only [List.forall_mem_cons]
  exact ⟨exec_delivers_record_r rfl rfl s, exec_delivers_record_r rfl rfl s, exec_delivers_record_r rfl rfl s,
    exec_delivers_record_r rfl rfl s, List.forall_mem_nil _⟩

/-- Settles O22: three instructions of format R. -/
theorem shiftAndJumpRegisterInstructionsDeliverTheirRecords :
    Obligations.ShiftAndJumpRegisterInstructionsDeliverTheirRecords := by
  unfold Obligations.ShiftAndJumpRegisterInstructionsDeliverTheirRecords
  intro rs rt rd shamt s
  simp only [List.forall_mem_cons]
  exact ⟨exec_delivers_record_r rfl rfl s, exec_delivers_record_r rfl rfl s, exec_delivers_record_r rfl rfl s,
    List.forall_mem_nil _⟩

end Sys2Proof.Machine
end

section
/-! PROOFS. The format I family: what a word of one of its rows decodes to, the line or the error of its templates, and
the record that each of its instructions delivers (42_i_format.md R89 to R93). -/

namespace Sys2Proof.Machine

/-! ## The words of a format I row and their line (45_disassembler.md R99, R103) -/

theorem renderOperands_imm {p : Params} {w : Word} (os : List OperandForm) :
    renderOperands p w (.immHex :: os) =
      (renderOperands p w os).map (String.ofList (Nat.toDigits 16 (immOf w).toNat) :: ·) := by
  have himm : (immOf w).toNat < 2 ^ 32 := (immOf w).isLt.trans (by decide)
  simp only [renderOperands, renderOperand, renderHex_eq _ himm]
  cases renderOperands p w os <;> rfl

/-- A template of two registers, in either order, and the immediate: the first register without a name is the error. -/
theorem render_reg_reg_imm {f : Format} {k : Kind} {x y : RegRole}
    (ht : template f k = some [.reg x, .reg y, .immHex]) (p : Params) (w : Word) (m : String) :
    render p ⟨w, f, k, m⟩ =
      match regName p (roleIndex w x), regName p (roleIndex w y) with
      | none, _ => .error (.unsupportedRegister (roleIndex w x))
      | some _, none => .error (.unsupportedRegister (roleIndex w y))
      | some a, some b => .ok (m ++ " " ++ "$" ++ a ++ ", " ++ "$" ++ b ++ ", " ++
          String.ofList (Nat.toDigits 16 (immOf w).toNat)) := by
  simp only [render_of_template ht, renderOperands_reg, renderOperands_imm, renderOperands_nil]
  cases regName p (roleIndex w x) with
  | none => rfl
  | some a =>
    cases regName p (roleIndex w y) with
    | none => rfl
    | some b => simp only [Except.map, joinOperands, String.append_assoc]

/-- A word of a format I row decodes to the row, its fields are its slices, and its line follows the kind's template. -/
theorem decode_fields_render_of_row_i {m : Mnemonic} {k : Kind} {bits : Word} {x y : RegRole}
    (hrow : ⟨m, .i, k, bits, 0xFC000000⟩ ∈ opcodeMap) (ht : template .i k = some [.reg x, .reg y, .immHex]) {w : Word}
    (h : w &&& 0xFC000000 = bits) :
    decode w = .ok ⟨w, .i, k, m.text⟩ ∧
      recordFields ⟨w, .i, k, m.text⟩ = some (.i (rsOf w) (rtOf w) (immOf w)) ∧
      ∀ p : Params, render p ⟨w, .i, k, m.text⟩ =
        match regName p (roleIndex w x), regName p (roleIndex w y) with
        | none, _ => .error (.unsupportedRegister (roleIndex w x))
        | some _, none => .error (.unsupportedRegister (roleIndex w y))
        | some a, some b => .ok (m.text ++ " " ++ "$" ++ a ++ ", " ++ "$" ++ b ++ ", " ++
            String.ofList (Nat.toDigits 16 (immOf w).toNat)) :=
  ⟨decode_of_resolve_ok (resolve_of_selects hrow h), rfl, fun p => render_reg_reg_imm ht p w m.text⟩

/-- Settles O18: two rows of the opcode map, under the template `rs, rt, imm`. -/
theorem addImmediateWordsDecodeAndRender : Obligations.AddImmediateWordsDecodeAndRender := by
  unfold Obligations.AddImmediateWordsDecodeAndRender
  have haddi : ⟨.addi, .i, .add, 0x20000000, 0xFC000000⟩ ∈ opcodeMap := by decide
  have haddiu : ⟨.addiu, .i, .add, 0x24000000, 0xFC000000⟩ ∈ opcodeMap := by decide
  refine ⟨?_, by decide⟩
  simp only [List.forall_mem_cons]
  exact ⟨fun _ => decode_fields_render_of_row_i haddi template_i_add,
    fun _ => decode_fields_render_of_row_i haddiu template_i_add, List.forall_mem_nil _⟩

/-- Settles O19: two rows of the opcode map, under the template `rt, rs, imm`. -/
theorem branchWordsDecodeAndRender : Obligations.BranchWordsDecodeAndRender := by
  unfold Obligations.BranchWordsDecodeAndRender
  have hbeq : ⟨.beq, .i, .branch, 0x10000000, 0xFC000000⟩ ∈ opcodeMap := by decide
  have hbne : ⟨.bne, .i, .branch, 0x14000000, 0xFC000000⟩ ∈ opcodeMap := by decide
  refine ⟨?_, by decide⟩
  simp only [List.forall_mem_cons]
  exact ⟨fun _ => decode_fields_render_of_row_i hbeq template_i_branch,
    fun _ => decode_fields_render_of_row_i hbne template_i_branch, List.forall_mem_nil _⟩

/-! ## The instructions of format I -/

/-- A format I instruction completes in every state: its record and its word are delivered, nothing else changes, and
the record holds the operands, the immediate raw, and is what decode makes of its word. -/
theorem exec_delivers_record_i {i : Instr} {op : BitVec 6} {rs rt : RegIndex} {imm : Imm} (hfmt : i.format = .i)
    (henc : encode i = encodeI op rs rt imm) (s : State) :
    ∃ r : Record, exec i s = .next { s with word := some r.raw, records := s.records ++ [r] } ∧
      r.format = .i ∧ r.kind = i.kind ∧ r.mnemonic = i.mnemonic.text ∧
      r.raw.extractLsb' 26 6 = op ∧ recordFields r = some (.i rs rt imm) ∧ decode r.raw = .ok r := by
  have hop : opcodeOf i.record.raw = op := by rw [Instr.record, henc, opcodeOf_encodeI]
  have hfields : recordFields i.record = some (.i rs rt imm) := by
    simp [recordFields, Instr.record, hfmt, henc]
  exact ⟨i.record, exec_eq_deliver i s, hfmt, rfl, rfl, hop, hfields, decode_encode i⟩

/-- Settles O23: the four instructions of format I. -/
theorem immediateInstructionsDeliverTheirRecords : Obligations.ImmediateInstructionsDeliverTheirRecords := by
  unfold Obligations.ImmediateInstructionsDeliverTheirRecords
  intro rs rt imm s
  simp only [List.forall_mem_cons]
  exact ⟨exec_delivers_record_i rfl rfl s, exec_delivers_record_i rfl rfl s, exec_delivers_record_i rfl rfl s,
    exec_delivers_record_i rfl rfl s, List.forall_mem_nil _⟩

end Sys2Proof.Machine
end

section
/-! PROOFS. The format J family: the words of format J, what they decode to and their line, and the record that `j`
delivers (43_j_format.md R94). -/

namespace Sys2Proof

/-- Only opcode 2 is of format J. -/
theorem opcodeOf_of_classify_j {w : Word} (h : classify w = .j) : opcodeOf w = 2 := by
  simpa [h] using classify_cases w

/-- The format J row of the opcode map (30_encoding.md R61). -/
theorem j_row_mem_opcodeMap : ⟨.j, .j, .jump, 0x08000000, 0xFC000000⟩ ∈ opcodeMap := by decide

/-- The words of format J are those of its one row: such a word is `encodeJ` of its address, and the row's mask drops
the address. -/
theorem classify_j_iff {w : Word} : classify w = .j ↔ w &&& 0xFC000000 = 0x08000000 := by
  refine ⟨fun hc => ?_, fun h => classify_of_resolve_ok (resolve_of_selects j_row_mem_opcodeMap h)⟩
  have hw := encodeJ_of_slices w (opcodeOf_of_classify_j hc)
  calc w &&& 0xFC000000 = encodeJ (addrOf w) &&& 0xFC000000 := by rw [hw]
    _ = encodeJ 0 := Laws.EncodesItsRow.encodeJ_and_mask (addrOf w)
    _ = 0x08000000 := by decide

end Sys2Proof

namespace Sys2Proof.Machine

/-- The template `address`: a line for every word, since no register is looked up (45_disassembler.md R99, R103). -/
theorem render_addr {f : Format} {k : Kind} (ht : template f k = some [.addrHex]) (p : Params) (w : Word) (m : String) :
    render p ⟨w, f, k, m⟩ = .ok (m ++ " " ++ String.ofList (Nat.toDigits 16 (addrOf w).toNat)) := by
  have haddr : (addrOf w).toNat < 2 ^ 32 := (addrOf w).isLt.trans (by decide)
  rw [render_of_template ht, ← renderHex_eq _ haddr]
  rfl

/-- Settles O20: format J is the row of `j`, and the row's template is the address alone. -/
theorem jumpWordsDecodeAndRender : Obligations.JumpWordsDecodeAndRender := by
  unfold Obligations.JumpWordsDecodeAndRender
  refine ⟨fun w => ⟨classify_j_iff, fun h => ?_⟩, by decide⟩
  have hd : decode w = .ok ⟨w, .j, .jump, "j"⟩ := decode_of_resolve_ok (resolve_of_classify_j (classify_j_iff.mpr h))
  exact ⟨hd, rfl, fun p => render_addr template_j_jump p w "j"⟩

/-- Settles O24: executing `j` delivers its record, whose address is the operand and which its word decodes to. -/
theorem jumpInstructionDeliversItsRecord : Obligations.JumpInstructionDeliversItsRecord := by
  unfold Obligations.JumpInstructionDeliversItsRecord
  intro addr s
  have hfields : recordFields (Instr.j addr).record = some (.j addr) :=
    congrArg (some <| Fields.j ·) (addrOf_encodeJ addr)
  exact ⟨(Instr.j addr).record, exec_eq_deliver (.j addr) s, rfl, rfl, rfl, opcodeOf_encodeJ addr, hfields,
    decode_encode (.j addr)⟩

end Sys2Proof.Machine
end

section
/-! PROOFS. The Disassembler: the register names, the spelling of numbers and `render` on every record
(45_disassembler.md R97 to R104, R109). -/

namespace Sys2Proof.Machine

/-! ## One record (45_disassembler.md R98 to R101, R109) -/

theorem renderOperands_cons (p : Params) (w : Word) (o : OperandForm) (os : List OperandForm) :
    renderOperands p w (o :: os) = (do
      let t ← renderOperand p w o
      let ts ← renderOperands p w os
      pure (t :: ts)) := by
  rw [renderOperands]
  cases renderOperand p w o with
  | error e => rfl
  | ok t => cases renderOperands p w os <;> rfl

/-- A template of one operand. -/
theorem render_one {f : Format} {k : Kind} {a : OperandForm} (ht : template f k = some [a]) (p : Params) (w : Word)
    (m : String) : render p ⟨w, f, k, m⟩ = (renderOperand p w a).map (m ++ " " ++ ·) := by
  rw [render_of_template ht, renderOperands_cons]
  cases renderOperand p w a <;> rfl

/-- A template of three operands: they are rendered from left to right, and the first error is the answer. -/
theorem render_three {f : Format} {k : Kind} {a b c : OperandForm} (ht : template f k = some [a, b, c]) (p : Params)
    (w : Word) (m : String) :
    render p ⟨w, f, k, m⟩ = Except.map (m ++ " " ++ ·) (do
      let x ← renderOperand p w a
      let y ← renderOperand p w b
      let z ← renderOperand p w c
      pure (x ++ ", " ++ y ++ ", " ++ z)) := by
  have hjoin (x y z : String) : joinOperands [x, y, z] = x ++ ", " ++ y ++ ", " ++ z := by
    simp only [joinOperands, String.append_assoc]
  simp only [render_of_template ht, renderOperands_cons]
  cases renderOperand p w a with
  | error e => rfl
  | ok x =>
    cases renderOperand p w b with
    | error e => rfl
    | ok y =>
      cases renderOperand p w c with
      | error e => rfl
      | ok z => exact congrArg (fun t => Except.ok (m ++ " " ++ t)) (hjoin x y z)

theorem render_of_template_none {f : Format} {k : Kind} (ht : template f k = none) (p : Params) (w : Word)
    (m : String) : render p ⟨w, f, k, m⟩ = .error (.unhandledTemplate f k) := by
  simp only [render, ht]

/-- Settles O33: the seven rows of the template table, of three operands or of one, and the pairs without a row. -/
theorem renderFollowsPseudocode : Obligations.RenderFollowsPseudocode := by
  unfold Obligations.RenderFollowsPseudocode
  refine ⟨?_, by decide⟩
  rintro p ⟨w₀, f, k, m⟩ w reg line add3
  have hline (ops : Except Error String) : line ops = ops.map (m ++ " " ++ ·) := by cases ops <;> rfl
  simp only [hline]
  split
  · exact render_three template_r_add p w m
  · exact render_three template_r_sub p w m
  · exact render_three template_r_shift p w m
  · exact render_one template_r_jump p w m
  · exact render_three template_i_add p w m
  · exact render_three template_i_branch p w m
  · exact render_one template_j_jump p w m
  · exact render_of_template_none (template_none _ _ (by simp_all)) p w m

theorem opcodeMap_template : ∀ row ∈ opcodeMap, template row.format row.kind ≠ none := by decide

/-- Settles O34: a decoded record is a row of the opcode map, every row has a template, and a template's operands raise
nothing but the error of an unnamed register. -/
theorem decodedRecordsHaveATemplate : Obligations.DecodedRecordsHaveATemplate := by
  unfold Obligations.DecodedRecordsHaveATemplate
  intro p w r hd
  obtain ⟨row, hmem, -, rfl⟩ := decode_ok_row hd
  have hunnamed (e : Error) (he : render p ⟨w, row.format, row.kind, row.mnemonic.text⟩ = .error e) :
      ∃ i, e = .unsupportedRegister i ∧ regName p i = none := by
    rcases render_cases p ⟨w, row.format, row.kind, row.mnemonic.text⟩ with
      ⟨ht, -⟩ | ⟨t, e', -, ho, hr⟩ | ⟨t, ops, -, -, hr⟩
    · exact absurd ht (opcodeMap_template row hmem)
    · cases hr.symm.trans he
      exact renderOperands_error p w t e ho
    · cases hr.symm.trans he
  refine ⟨fun f k he => ?_, hunnamed⟩
  obtain ⟨i, hi, -⟩ := hunnamed _ he
  cases hi

/-- Settles O31: the table of names, index by index. -/
theorem registerNameTable : Obligations.RegisterNameTable := by
  unfold Obligations.RegisterNameTable
  exact ⟨by decide, fun _ => rfl⟩

/-! ## The spelling of numbers (45_disassembler.md R103, R104) -/

/-- The numeral of a number is one digit, or the numeral of a positive number and one digit more. -/
theorem toDigits_induction {b : Nat} (hb : 1 < b) {P : Nat → List Char → Prop}
    (digit : ∀ d < b, P d [d.digitChar])
    (push : ∀ n d, 0 < n → d < b → P n (Nat.toDigits b n) → P (b * n + d) (Nat.toDigits b n ++ [d.digitChar]))
    (n : Nat) : P n (Nat.toDigits b n) := by
  induction n using Nat.strongRec with
  | ind n ih =>
    rcases Nat.lt_or_ge n b with hlt | hge
    · exact Nat.toDigits_of_lt_base hlt ▸ digit n hlt
    · have hdiv : n / b < n := Nat.div_lt_self (by omega) hb
      have hpush := push (n / b) (n % b) (Nat.div_pos hge (by omega)) (Nat.mod_lt n (by omega)) (ih (n / b) hdiv)
      rwa [Nat.div_add_mod, ← Nat.toDigits_of_base_le hb hge] at hpush

theorem digitChar_mem_hexDigits : ∀ d < 16, d.digitChar ∈ "0123456789abcdef".toList := by decide

theorem idxOf_digitChar_hexDigits : ∀ d < 16, "0123456789abcdef".toList.idxOf d.digitChar = d := by decide

theorem eq_zero_of_digitChar : ∀ d < 16, d.digitChar = '0' → d = 0 := by decide

/-- The digits of a hexadecimal numeral are lower case. -/
theorem toDigits_hex_subset (n : Nat) : ∀ c ∈ Nat.toDigits 16 n, c ∈ "0123456789abcdef".toList := by
  refine toDigits_induction (P := fun _ ds => ∀ c ∈ ds, c ∈ "0123456789abcdef".toList) (by decide)
    (fun d hd => ?_) (fun n d _ hd ih => ?_) n
  · exact List.forall_mem_singleton.mpr (digitChar_mem_hexDigits d hd)
  · exact List.forall_mem_append.mpr ⟨ih, List.forall_mem_singleton.mpr (digitChar_mem_hexDigits d hd)⟩

/-- Only the hexadecimal numeral of zero begins with the digit zero. -/
theorem eq_zero_of_head_toDigits_hex (n : Nat) : (Nat.toDigits 16 n).head? = some '0' → n = 0 := by
  refine toDigits_induction (P := fun n ds => ds.head? = some '0' → n = 0) (by decide)
    (fun d hd h => ?_) (fun n d hn _ ih h => ?_) n
  · exact eq_zero_of_digitChar d hd (Option.some.inj h)
  · rw [List.head?_append_of_ne_nil _ Nat.toDigits_ne_nil] at h
    exact absurd (ih h) hn.ne'

/-- Read back digit by digit, a hexadecimal numeral is its number. -/
theorem foldl_toDigits_hex (n : Nat) :
    (Nat.toDigits 16 n).foldl (fun v c => 16 * v + "0123456789abcdef".toList.idxOf c) 0 = n := by
  refine toDigits_induction (P := fun n ds =>
      ds.foldl (fun v c => 16 * v + "0123456789abcdef".toList.idxOf c) 0 = n) (by decide)
    (fun d hd => ?_) (fun n d _ hd ih => ?_) n
  · simp only [List.foldl_cons, List.foldl_nil, idxOf_digitChar_hexDigits d hd]
    omega
  · rw [List.foldl_append, ih, List.foldl_cons, List.foldl_nil, idxOf_digitChar_hexDigits d hd]

/-- Settles O35: a hexadecimal operand is the library's numeral, whose digits are given by induction on the numeral. -/
theorem hexadecimalSpelling : Obligations.HexadecimalSpelling := by
  unfold Obligations.HexadecimalSpelling
  refine ⟨fun n hn => ?_, fun p w => ⟨rfl, rfl, ?_⟩, by decide⟩
  · have hspell : (renderHex n).toList = Nat.toDigits 16 n := by
      rw [renderHex_eq n (hn.trans (by decide)), String.toList_ofList]
    simp only [hspell]
    refine ⟨Nat.toDigits_ne_nil, toDigits_hex_subset n, fun h => ?_, foldl_toDigits_hex n⟩
    rw [eq_zero_of_head_toDigits_hex n h, Nat.toDigits_zero]
  · exact congrArg Except.ok (renderDec_eq _ (shamtOf w).isLt)

end Sys2Proof.Machine
end

section
/-! PROOFS. `render_all`: its lines are those of its records, and its failure is the first of a record
(45_disassembler.md R105 to R108). -/

namespace Sys2Proof.Machine

/-! ## The records from a position on -/

section
variable {p : Params}

theorem renderFrom_cons_of_error {r : Record} {e : Error} (h : render p r = .error e) (i : Nat) (rs : List Record) :
    renderFrom p i (r :: rs) = .error (e, i) := by
  simp only [renderFrom, h]

theorem renderFrom_cons_of_ok {r : Record} {l : String} (h : render p r = .ok l) (i : Nat) (rs : List Record) :
    renderFrom p i (r :: rs) = (renderFrom p (i + 1) rs).map (l :: ·) := by
  simp only [renderFrom, h]
  cases renderFrom p (i + 1) rs <;> rfl

/-- The lines are those of the records one by one. -/
theorem renderFrom_ok_iff {i : Nat} {rs : List Record} {ls : List String} :
    renderFrom p i rs = .ok ls ↔ List.Forall₂ (fun r l => render p r = .ok l) rs ls := by
  induction rs generalizing i ls with
  | nil => simp [renderFrom, eq_comm]
  | cons r rs ih =>
    rw [List.forall₂_cons_left_iff]
    cases h : render p r with
    | error e => simp [renderFrom_cons_of_error h]
    | ok l =>
      simp only [renderFrom_cons_of_ok h, ← ih (i := i + 1)]
      cases renderFrom p (i + 1) rs <;> simp [Except.map, eq_comm]

/-- Record number `j` fails with the error, and every record before it renders. -/
def IsFirstRenderFailure (p : Params) (rs : List Record) (e : Error) (j : Nat) : Prop :=
  ∃ h : j < rs.length, render p rs[j] = .error e ∧ ∀ k (hk : k < j), ∃ l, render p (rs[k]'(hk.trans h)) = .ok l

theorem isFirstRenderFailure_cons_zero_iff {r : Record} {rs : List Record} {e : Error} :
    IsFirstRenderFailure p (r :: rs) e 0 ↔ render p r = .error e := by
  simp [IsFirstRenderFailure]

theorem isFirstRenderFailure_cons_succ_iff {r : Record} {rs : List Record} {e : Error} {j : Nat} :
    IsFirstRenderFailure p (r :: rs) e (j + 1) ↔ (∃ l, render p r = .ok l) ∧ IsFirstRenderFailure p rs e j := by
  constructor
  · rintro ⟨h, herr, hbefore⟩
    exact ⟨hbefore 0 j.succ_pos, Nat.lt_of_succ_lt_succ h, herr, fun k hk => hbefore (k + 1) (Nat.succ_lt_succ hk)⟩
  · rintro ⟨hok, h, herr, hbefore⟩
    refine ⟨Nat.succ_lt_succ h, herr, fun k hk => ?_⟩
    cases k with
    | zero => exact hok
    | succ k => exact hbefore k (Nat.lt_of_succ_lt_succ hk)

/-- The failure reported is the first one, its index counted from that of the first record. -/
theorem renderFrom_error_iff {i n : Nat} {rs : List Record} {e : Error} :
    renderFrom p i rs = .error (e, n) ↔ ∃ j, n = i + j ∧ IsFirstRenderFailure p rs e j := by
  induction rs generalizing i with
  | nil => simp [renderFrom, IsFirstRenderFailure]
  | cons r rs ih =>
    rw [← Nat.or_exists_add_one]
    simp only [isFirstRenderFailure_cons_zero_iff, isFirstRenderFailure_cons_succ_iff]
    cases h : render p r with
    | error e' => simp [renderFrom_cons_of_error h, eq_comm, and_comm]
    | ok l =>
      have hmap : renderFrom p i (r :: rs) = .error (e, n) ↔ renderFrom p (i + 1) rs = .error (e, n) := by
        rw [renderFrom_cons_of_ok h]
        cases renderFrom p (i + 1) rs <;> simp [Except.map]
      simp [hmap, ih, Nat.add_assoc, Nat.add_comm 1]

/-! ## A whole call -/

/-- The text of a call is the header and the lines of all the records. -/
theorem renderAll_ok_iff {rs : List Record} {label t : String} :
    renderAll p rs label = .ok t ↔ ∃ ls, renderFrom p 0 rs = .ok ls ∧ t = assemble label ls := by
  cases h : renderFrom p 0 rs <;> simp [renderAll, h, eq_comm]

theorem renderAll_error_iff {rs : List Record} {label : String} {e : Error} {i : Nat} :
    renderAll p rs label = .error (e, i) ↔ IsFirstRenderFailure p rs e i := by
  have hfrom : renderAll p rs label = .error (e, i) ↔ renderFrom p 0 rs = .error (e, i) := by
    cases h : renderFrom p 0 rs <;> simp [renderAll, h]
  simp [hfrom, renderFrom_error_iff]

end

/-! ## The text -/

theorem joinLines_eq_join (ls : List String) : joinLines ls = String.join (ls.map (· ++ "\n")) := by
  induction ls with
  | nil => rfl
  | cons l ls ih => rw [joinLines, ih, List.map_cons, String.join_cons]

/-- The text is the header line and the lines, each with its own newline (45_disassembler.md R105, R106). -/
theorem assemble_eq (label : String) (ls : List String) :
    assemble label ls = "section \"" ++ label ++ "\":\n" ++ String.join (ls.map (· ++ "\n")) := by
  have hend : "\":" ++ "\n" = "\":\n" := by decide
  rw [assemble, joinLines, headerLine, joinLines_eq_join, ← hend]
  simp only [String.append_assoc]

/-- Settles O36: by induction on the records, the lines are theirs one by one; the text is `assemble`'s. -/
theorem renderAllGivesHeaderAndLinesInOrder : Obligations.RenderAllGivesHeaderAndLinesInOrder := by
  unfold Obligations.RenderAllGivesHeaderAndLinesInOrder
  refine ⟨fun p rs label t => ?_, fun p label => ?_⟩
  · simp only [renderAll_ok_iff, renderFrom_ok_iff, List.forall₂_iff_get, List.get_eq_getElem, assemble_eq, and_assoc,
      eq_comm (a := rs.length)]
  · exact renderAll_ok_iff.mpr ⟨[], rfl, (assemble_eq label []).symm ▸ by simp⟩

/-- Settles O37: by induction on the records, the failure of `render_all` is the first one; the whole path adds the
offset of its word. -/
theorem renderAllReportsTheFirstFailure : Obligations.RenderAllReportsTheFirstFailure := by
  unfold Obligations.RenderAllReportsTheFirstFailure
  refine ⟨fun p rs label e i => renderAll_error_iff, fun p buf s n label rs e i hd hr => ?_⟩
  simp only [disassemble, hd, hr]

end Sys2Proof.Machine
end

section
/-! PROOFS. What a step can do, the word read and decoded as one; which steps stop, and that every step keeps the
bookkeeping of the run (60_exceptions.md R122; 70_reset_and_hazards.md R138, R139). -/

namespace Sys2Proof

/-! ## The instruction of a word -/

/-- The instruction decoded from a word has the record that decode returns. -/
theorem decode_of_decodeInstr_ok {w : Word} {i : Instr} (h : decodeInstr w = .ok i) : decode w = .ok i.record := by
  rcases hr : resolve w with e | ⟨f, k, m⟩
  · simp [decodeInstr, hr] at h
  · obtain rfl : Instr.ofWord m w = i := by simpa [decodeInstr, hr] using h
    obtain ⟨henc, hm, hf, hk⟩ := ofWord_of_resolve_ok hr
    rw [decode_of_resolve_ok hr, Instr.record, henc, hm, hf, hk]

/-- The two views of the decoder raise the same error. -/
theorem decode_of_decodeInstr_error {w : Word} {e : Error} (h : decodeInstr w = .error e) : decode w = .error e := by
  rcases hr : resolve w with e' | ⟨f, k, m⟩
  · rw [decode_error_iff, hr]
    simpa [decodeInstr, hr] using h
  · simp [decodeInstr, hr] at h

/-- Four bytes decode to the instruction of the word they join to. -/
theorem decodeInstr_of_decodeBytes_ok {b0 b1 b2 b3 : Byte} {i : Instr} {rest : List Byte}
    (h : decodeBytes [b0, b1, b2, b3] = .ok (i, rest)) : decodeInstr (joinBytes b0 b1 b2 b3) = .ok i := by
  cases hd : decodeInstr (joinBytes b0 b1 b2 b3) with
  | error e => simp [decodeBytes, hd] at h
  | ok i' => simp_all [decodeBytes]

end Sys2Proof

namespace Sys2Proof.Machine

/-! ## One step -/

/-- A step that reads a word whose instruction is `i` is `exec i`. -/
theorem step_of_decoding {s : State} {w : Word} {i : Instr} (hp : s.phase = .decoding)
    (hr : readWord s.params s.buffer (s.wordOffset s.records.length) = .ok w) (hd : decodeInstr w = .ok i) :
    step s = exec i s := by
  simp [step, hp, fetch, hr, hd]

/-- Every next state of a step: the record of the next word is delivered, or its error is raised whatever becomes of
the input port; or the line of the next record is added, or its error is raised. -/
theorem step_next_cases {s t : State} (h : step s = .next t) :
    (s.phase = .decoding ∧
      ((∃ r, decodeAt s.params s.buffer (s.wordOffset s.records.length) = .ok r ∧ t = deliver r s) ∨
       ∃ e w u, decodeAt s.params s.buffer (s.wordOffset s.records.length) = .error e ∧
        t = raise e s.records.length (some (s.wordOffset s.records.length)) { s with word := w, undriven := u })) ∨
    (s.phase = .rendering ∧ ∃ r, s.records[s.lines.length]? = some r ∧
      ((∃ l, render s.params r = .ok l ∧ t = { s with lines := s.lines ++ [l] }) ∨
       ∃ e, render s.params r = .error e ∧ t = raise e s.lines.length (s.renderOffset s.lines.length) s)) := by
  rcases step_cases s with ⟨w, i, hp, hr, hd, hs⟩ | ⟨e, hp, hr, hs⟩ | ⟨w, e, hp, hr, hd, hs⟩ | ⟨r, l, hp, hr, hl, hs⟩ |
      ⟨r, e, hp, hr, he, hs⟩ | ⟨_, hs⟩ <;> rw [hs] at h <;> cases h
  · exact .inl ⟨hp, .inl ⟨i.record, decodeAt_ok_iff.mpr ⟨w, hr, decode_of_decodeInstr_ok hd⟩, rfl⟩⟩
  · exact .inl ⟨hp, .inr ⟨e, none, s.undriven + 1, decodeAt_error_iff.mpr (.inl hr), rfl⟩⟩
  · exact .inl ⟨hp, .inr ⟨e, some w, s.undriven,
      decodeAt_error_iff.mpr (.inr ⟨w, hr, decode_of_decodeInstr_error hd⟩), rfl⟩⟩
  · exact .inr ⟨hp, r, hr, .inl ⟨l, hl, rfl⟩⟩
  · exact .inr ⟨hp, r, hr, .inr ⟨e, he, rfl⟩⟩

/-- A step answers a next state until the run has ended, and faults from then on. -/
theorem step_next_or_fault (s : State) :
    (s.phase ≠ .ended ∧ ∃ t, step s = .next t) ∨ (s.phase = .ended ∧ step s = .fault .runEnded) := by
  rcases step_cases s with ⟨_, _, hp, _, _, hs⟩ | ⟨_, hp, _, hs⟩ | ⟨_, _, hp, _, _, hs⟩ | ⟨_, _, hp, _, _, hs⟩ |
      ⟨_, _, hp, _, _, hs⟩ | h
  case inr.inr.inr.inr.inr => exact .inr h
  all_goals exact .inl ⟨by simp [hp], _, hs⟩

/-- The run has ended exactly when an error stands, or all words are decoded and no line is asked for or missing. -/
theorem phase_ended_iff (s : State) :
    s.phase = .ended ↔ s.error ≠ none ∨
      s.count ≤ s.records.length ∧ (s.label = none ∨ s.records.length ≤ s.lines.length) := by
  have hnot : s.phase = .ended ↔ ¬ s.phase = .decoding ∧ ¬ s.phase = .rendering := by
    cases s.phase <;> simp
  rw [hnot, phase_decoding_iff, phase_rendering_iff, ← Nat.not_lt, ← Nat.not_lt]
  tauto

/-- Settles O40: the checks of the read pass, and the word read is the join of the four bytes. -/
theorem stepExecutesTheDecodedInstruction : Obligations.StepExecutesTheDecodedInstruction := by
  unfold Obligations.StepExecutesTheDecodedInstruction
  intro s m b0 b1 b2 b3 i he hlt hbuf halign hlen hover h0 h1 h2 h3 hdec
  have hr : readWord s.params s.buffer (s.wordOffset s.records.length) = .ok (joinBytes b0 b1 b2 b3) := by
    rw [hbuf]
    exact readWord_of_reads halign hlen hover h0 h1 h2 h3
  exact step_of_decoding ((phase_decoding_iff s).mpr ⟨he, hlt⟩) hr (decodeInstr_of_decodeBytes_ok hdec)

/-- Settles O44: a step either answers a next state or faults, by whether the run has ended; every instruction delivers
its record. -/
theorem onlyTheEndOfTheRunStops : Obligations.OnlyTheEndOfTheRunStops := by
  unfold Obligations.OnlyTheEndOfTheRunStops
  refine ⟨fun s => ?_, fun i s => ⟨_, exec_eq_deliver i s, by simp, by simp⟩⟩
  rcases step_next_or_fault s with ⟨hp, t, hs⟩ | ⟨hp, hs⟩
  · simp [hs, hp]
  · simp [hs, hp]

/-! ## The bookkeeping of a run -/

/-- Without lines, the bookkeeping asks only that there be no more records than words. -/
theorem bounded_of_lines_nil {s : State} (hl : s.lines = []) (hr : s.records.length ≤ s.count) : s.Bounded where
  records_le := hr
  lines_le := by simp [hl]
  lines_late hne := absurd hl hne
  lines_label _ := hl
  error_lines _ := hl

theorem raise_bounded {s : State} (h : s.Bounded) (e : Error) (i : Nat) (o : Option Nat) : (raise e i o s).Bounded :=
  bounded_of_lines_nil rfl h.records_le

/-- While words are left to decode there are no lines, so a record may be added. -/
theorem deliver_bounded {s : State} (h : s.Bounded) (hp : s.phase = .decoding) (r : Record) :
    (deliver r s).Bounded := by
  have hlt := ((phase_decoding_iff s).mp hp).2
  have hl : s.lines = [] := by_contra fun hne => hlt.ne (h.lines_late hne)
  exact bounded_of_lines_nil hl (by simpa using hlt)

/-- A line is added only with a label, once all words are decoded, and beside no error. -/
theorem addLine_bounded {s : State} (h : s.Bounded) (hp : s.phase = .rendering) (l : String) :
    State.Bounded { s with lines := s.lines ++ [l] } := by
  obtain ⟨he, hcount, hlabel, hlt⟩ := (phase_rendering_iff s).mp hp
  exact
    { records_le := h.records_le
      lines_le := by simpa using hlt
      lines_late := fun _ => h.records_le.antisymm hcount
      lines_label := fun hn => absurd hn hlabel
      error_lines := fun hne => absurd he hne }

theorem step_bounded {s t : State} (h : step s = .next t) (hb : s.Bounded) : t.Bounded := by
  rcases step_next_cases h with ⟨hp, ⟨r, _, rfl⟩ | ⟨e, w, u, _, rfl⟩⟩ | ⟨hp, r, _, ⟨l, _, rfl⟩ | ⟨e, _, rfl⟩⟩
  · exact deliver_bounded hb hp r
  · have hport : State.Bounded { s with word := w, undriven := u } := { hb with }
    exact raise_bounded hport e _ _
  · exact addLine_bounded hb hp l
  · exact raise_bounded hb e _ _

theorem step_buffer {s t : State} (h : step s = .next t) : t.buffer = s.buffer := by
  rcases step_next_cases h with ⟨_, ⟨_, _, rfl⟩ | ⟨_, _, _, _, rfl⟩⟩ | ⟨_, _, _, ⟨_, _, rfl⟩ | ⟨_, _, rfl⟩⟩ <;> rfl

/-- Settles O48: no step touches the buffer, and each of the next states keeps the bookkeeping. -/
theorem stepsKeepTheBookkeeping : Obligations.StepsKeepTheBookkeeping := by
  unfold Obligations.StepsKeepTheBookkeeping
  intro s t h
  refine ⟨fun hc m hm => hc m ?_, step_bounded h⟩
  rw [← step_buffer h, hm]

/-! ## The start of a run -/

theorem start_bounded (s : State) (buf : Option Memory) (o n : Nat) (l : Option String) :
    (s.start buf o n l).Bounded :=
  bounded_of_lines_nil rfl n.zero_le

theorem start_faithful (s : State) (buf : Option Memory) (o n : Nat) (l : Option String) :
    (s.start buf o n l).Faithful where
  bounded := start_bounded s buf o n l
  decoded := rfl
  rendered := rfl
  failed e h := by simp at h

/-- At reset the machine stands as after an empty call over no buffer. -/
theorem reset_eq_start : State.reset = State.reset.start none 0 0 none := rfl

theorem canonical_of_buffer_none {s : State} (h : s.buffer = none) : s.Canonical := fun m hm => by
  simp [h] at hm

/-- Settles O47: there are no lines at the start of a run, and no words decoded; the caller's operations on a buffer keep
its form. -/
theorem invariantsHoldAtResetAndAtEveryCall : Obligations.InvariantsHoldAtResetAndAtEveryCall := by
  unfold Obligations.InvariantsHoldAtResetAndAtEveryCall
  refine ⟨reset_eq_start ▸ start_bounded _ _ _ _ _, reset_eq_start ▸ start_faithful _ _ _ _ _,
    canonical_of_buffer_none rfl, start_faithful, fun s rs l => ⟨bounded_of_lines_nil rfl le_rfl,
    canonical_of_buffer_none rfl⟩, fun s bs o n l m hm => ?_, Memory.write_wf⟩
  obtain rfl : Memory.ofBytes bs = m := by simpa using hm
  exact Memory.ofBytes_wf bs

end Sys2Proof.Machine
end

section
/-! PROOFS. What the rest of a run gives, told by the pure functions from any state on: every step keeps it, the end of
the run answers it, and the steps left are bounded (40_decode_algorithm.md R80; 45_disassembler.md R105, R108, R110). -/

namespace Sys2Proof.Machine

/-! ## The rest of a run -/

/-- What rendering the records gives, from the next line on. -/
def State.renderOutcome (s : State) (rs : List Record) : RunResult :=
  match s.label with
  | none => .records rs
  | some label =>
    match renderFrom s.params s.lines.length (rs.drop s.lines.length) with
    | .ok ls => .text (assemble label (s.lines ++ ls))
    | .error (e, i) => .failed ⟨e, i, s.renderOffset i⟩

/-- What the run gives from here on: its error, or that of the words left, or what rendering gives. -/
def State.outcome (s : State) : RunResult :=
  match s.error with
  | some rep => .failed rep
  | none =>
    match decodeFrom s.params s.buffer s.offset s.records.length (s.count - s.records.length) with
    | .ok rs => s.renderOutcome (s.records ++ rs)
    | .error rep => .failed rep

/-- The steps left, unless an error comes: one per word to decode and, with a label, one per record to render. -/
def State.stepsLeft (s : State) : Nat :=
  if s.error.isSome then 0
  else (s.count - s.records.length) +
    (if s.label.isSome then max s.count s.records.length - s.lines.length else 0)

section
variable {s t : State}

/-! ## The outcome of a state -/

theorem outcome_of_error {rep : ErrorReport} (h : s.error = some rep) : s.outcome = .failed rep := by
  rw [State.outcome, h]

/-- Once all words are decoded only the rendering is left. -/
theorem outcome_of_decoded (he : s.error = none) (hcount : s.count ≤ s.records.length) :
    s.outcome = s.renderOutcome s.records := by
  rw [State.outcome, he, Nat.sub_eq_zero_of_le hcount]
  simp [decodeFrom]

/-- The next word is the first of the words left. -/
theorem words_left_of_decoding (hp : s.phase = .decoding) :
    s.count - s.records.length = s.count - (s.records.length + 1) + 1 := by
  have hlt := ((phase_decoding_iff s).mp hp).2
  omega

theorem outcome_of_decodeAt_error {e : Error} (hp : s.phase = .decoding)
    (hd : decodeAt s.params s.buffer (s.wordOffset s.records.length) = .error e) :
    s.outcome = .failed ⟨e, s.records.length, some (s.wordOffset s.records.length)⟩ := by
  rw [State.outcome, ((phase_decoding_iff s).mp hp).1, words_left_of_decoding hp, decodeFrom_succ_of_error hd]
  rfl

theorem outcome_deliver {r : Record} (hp : s.phase = .decoding)
    (hd : decodeAt s.params s.buffer (s.wordOffset s.records.length) = .ok r) :
    (deliver r s).outcome = s.outcome := by
  have hlen : (deliver r s).records.length = s.records.length + 1 := by simp
  rw [State.outcome, State.outcome, deliver_error, ((phase_decoding_iff s).mp hp).1, words_left_of_decoding hp,
    decodeFrom_succ_of_ok hd, hlen, deliver_params, deliver_buffer, deliver_offset, deliver_count, deliver_records]
  cases decodeFrom s.params s.buffer s.offset (s.records.length + 1) (s.count - (s.records.length + 1)) with
  | error rep => rfl
  | ok rs =>
    simp only [Except.map, List.append_assoc, List.singleton_append]
    rfl

theorem renderOutcome_of_render_error {rs : List Record} {r : Record} {e : Error} (hl : s.label ≠ none)
    (hr : rs[s.lines.length]? = some r) (he : render s.params r = .error e) :
    s.renderOutcome rs = .failed ⟨e, s.lines.length, s.renderOffset s.lines.length⟩ := by
  obtain ⟨label, hlabel⟩ := Option.ne_none_iff_exists'.mp hl
  obtain ⟨hlt, rfl⟩ := List.getElem?_eq_some_iff.mp hr
  rw [State.renderOutcome, hlabel, List.drop_eq_getElem_cons hlt, renderFrom_cons_of_error he]

theorem renderOutcome_addLine {rs : List Record} {r : Record} {l : String}
    (hr : rs[s.lines.length]? = some r) (hl : render s.params r = .ok l) :
    State.renderOutcome { s with lines := s.lines ++ [l] } rs = s.renderOutcome rs := by
  obtain ⟨hlt, rfl⟩ := List.getElem?_eq_some_iff.mp hr
  cases hlabel : s.label with
  | none => simp only [State.renderOutcome, hlabel]
  | some label =>
    simp only [State.renderOutcome, hlabel, List.length_append, List.length_singleton,
      List.drop_eq_getElem_cons hlt, renderFrom_cons_of_ok hl]
    cases renderFrom s.params (s.lines.length + 1) (rs.drop (s.lines.length + 1)) with
    | error ei => rfl
    | ok ls => simp [Except.map]

/-- Every step keeps the outcome of the run. -/
theorem step_outcome (h : step s = .next t) : t.outcome = s.outcome := by
  rcases step_next_cases h with ⟨hp, ⟨r, hd, rfl⟩ | ⟨e, w, u, hd, rfl⟩⟩ | ⟨hp, r, hr, ⟨l, hl, rfl⟩ | ⟨e, he, rfl⟩⟩
  · exact outcome_deliver hp hd
  · rw [outcome_of_decodeAt_error hp hd]
    exact outcome_of_error rfl
  · obtain ⟨he, hcount, -, -⟩ := (phase_rendering_iff s).mp hp
    calc State.outcome { s with lines := s.lines ++ [l] }
      _ = State.renderOutcome { s with lines := s.lines ++ [l] } s.records := outcome_of_decoded he hcount
      _ = s.renderOutcome s.records := renderOutcome_addLine hr hl
      _ = s.outcome := (outcome_of_decoded he hcount).symm
  · obtain ⟨hnone, hcount, hlabel, -⟩ := (phase_rendering_iff s).mp hp
    rw [outcome_of_decoded hnone hcount, renderOutcome_of_render_error hlabel hr he]
    exact outcome_of_error rfl

/-- At the end of the run the caller gets its outcome. -/
theorem result_of_ended (hp : s.phase = .ended) : s.result = some s.outcome := by
  cases he : s.error with
  | some rep => simp [State.result, hp, he, outcome_of_error he]
  | none =>
    obtain ⟨hcount, hlines⟩ := ((phase_ended_iff s).mp hp).resolve_left (not_not_intro he)
    rw [outcome_of_decoded he hcount]
    cases hlabel : s.label with
    | none => simp [State.result, hp, he, hlabel, State.renderOutcome]
    | some label =>
      have hdrop : s.records.drop s.lines.length = [] :=
        List.drop_eq_nil_of_le (hlines.resolve_left (by simp [hlabel]))
      simp [State.result, hp, he, hlabel, State.renderOutcome, hdrop, renderFrom]

/-! ## The length of a run -/

theorem stepsLeft_of_error (h : s.error ≠ none) : s.stepsLeft = 0 :=
  if_pos (Option.isSome_iff_ne_none.mpr h)

theorem stepsLeft_of_no_error (h : s.error = none) : s.stepsLeft = (s.count - s.records.length) +
    (if s.label.isSome then max s.count s.records.length - s.lines.length else 0) :=
  if_neg (by simp [h])

theorem stepsLeft_pos_of_not_ended (hp : s.phase ≠ .ended) : 0 < s.stepsLeft := by
  cases h : s.phase with
  | decoding =>
    obtain ⟨he, hlt⟩ := (phase_decoding_iff s).mp h
    rw [stepsLeft_of_no_error he]
    omega
  | rendering =>
    obtain ⟨he, hcount, hlabel, hlt⟩ := (phase_rendering_iff s).mp h
    rw [stepsLeft_of_no_error he, if_pos (Option.isSome_iff_ne_none.mpr hlabel)]
    omega
  | ended => exact absurd h hp

/-- Every step leaves fewer steps. -/
theorem step_stepsLeft_lt (h : step s = .next t) : t.stepsLeft < s.stepsLeft := by
  have hpos : 0 < s.stepsLeft := by
    rcases step_next_or_fault s with ⟨hp, -⟩ | ⟨-, hs⟩
    · exact stepsLeft_pos_of_not_ended hp
    · simp [hs] at h
  rcases step_next_cases h with ⟨hp, ⟨r, hd, rfl⟩ | ⟨e, w, u, hd, rfl⟩⟩ | ⟨hp, r, hr, ⟨l, hl, rfl⟩ | ⟨e, he, rfl⟩⟩
  · obtain ⟨he, hlt⟩ := (phase_decoding_iff s).mp hp
    have hmax : max s.count (s.records.length + 1) = max s.count s.records.length := by omega
    rw [stepsLeft_of_no_error he, stepsLeft_of_no_error ((deliver_error s r).trans he)]
    simp only [deliver_count, deliver_records, deliver_label, deliver_lines, List.length_append, List.length_singleton,
      hmax]
    omega
  · rw [stepsLeft_of_error (by simp)]
    exact hpos
  · obtain ⟨he, -, hlabel, hlt⟩ := (phase_rendering_iff s).mp hp
    have hsome : s.label.isSome = true := Option.isSome_iff_ne_none.mpr hlabel
    rw [stepsLeft_of_no_error he, stepsLeft_of_no_error (s := { s with lines := s.lines ++ [l] }) he]
    simp only [hsome, if_true, List.length_append, List.length_singleton]
    omega
  · rw [stepsLeft_of_error (by simp)]
    exact hpos

/-! ## Whole runs -/

theorem endsWith_of_step {n : Nat} {res : RunResult} (h : step s = .next t) (ht : t.EndsWith n res) :
    s.EndsWith (n + 1) res := by
  obtain ⟨k, u, hk, hrun, hu⟩ := ht
  exact ⟨k + 1, u, Nat.succ_le_succ hk, (run_succ_iff k s u).mpr ⟨t, h, hrun⟩, hu⟩

end

/-- From every state the run ends with its outcome, within the steps left. -/
theorem endsWith_outcome (n : Nat) (s : State) (hn : s.stepsLeft ≤ n) : s.EndsWith n s.outcome := by
  induction n generalizing s with
  | zero =>
    have hp : s.phase = .ended := by_contra fun hp => (stepsLeft_pos_of_not_ended hp).not_ge hn
    exact ⟨0, s, le_rfl, rfl, hp, result_of_ended hp⟩
  | succ n ih =>
    rcases step_next_or_fault s with ⟨-, t, h⟩ | ⟨hp, -⟩
    · have hlt := step_stepsLeft_lt h
      rw [← step_outcome h]
      exact endsWith_of_step h (ih t (by omega))
    · exact ⟨0, s, Nat.zero_le _, rfl, hp, result_of_ended hp⟩

/-! ## Calls -/

/-- Over an absent buffer only the empty sequence decodes. -/
theorem decodeAll_none_ok {p : Params} {o n : Nat} {rs : List Record} (h : decodeAll p none o n = .ok rs) :
    rs = [] := by
  cases n with
  | zero => exact (Except.ok.inj h).symm
  | succ n => simp [decodeAll, decodeFrom, readWord_absent] at h

/-- At the start of a call over a buffer, the outcome is what the sequence decode or the whole path gives: a record that
fails to render came from a buffer, so its byte offset is reported. -/
theorem outcome_start (s : State) (buf : Option Memory) (o n : Nat) (label : Option String) :
    (s.start buf o n label).outcome = (s.start buf o n label).expected := by
  have hout : (s.start buf o n label).outcome =
      match decodeAll s.params buf o n with
      | .ok rs => (s.start buf o n label).renderOutcome rs
      | .error rep => .failed rep := rfl
  rw [hout]
  cases hd : decodeAll s.params buf o n with
  | error rep => cases label <;> simp [State.expected, disassemble, hd]
  | ok rs =>
    cases label with
    | none => simp [State.expected, State.renderOutcome, hd]
    | some l =>
      cases hr : renderFrom s.params 0 rs with
      | ok ls => simp [State.expected, State.renderOutcome, disassemble, renderAll, hd, hr]
      | error ei =>
        obtain ⟨e, i⟩ := ei
        cases buf with
        | none => simp [decodeAll_none_ok hd, renderFrom] at hr
        | some m =>
          simp [State.expected, State.renderOutcome, disassemble, renderAll, hd, hr, State.renderOffset,
            State.wordOffset]

/-- At the start of a call over records the outcome is what `render_all` gives, without a byte offset. -/
theorem outcome_startRender (s : State) (rs : List Record) (label : String) :
    (s.startRender rs label).outcome =
      match renderAll s.params rs label with
      | .ok t => .text t
      | .error (e, i) => .failed ⟨e, i, none⟩ := by
  rw [outcome_of_decoded rfl le_rfl]
  rcases hr : renderFrom s.params 0 rs with ⟨e, i⟩ | ls
  · simp [State.renderOutcome, State.renderOffset, renderAll, hr]
  · simp [State.renderOutcome, renderAll, hr]

/-- Settles O51: the run ends with its outcome, which at the start is what the spec's functions give. -/
theorem everyCallEndsWithTheSpecifiedResult : Obligations.EveryCallEndsWithTheSpecifiedResult := by
  unfold Obligations.EveryCallEndsWithTheSpecifiedResult
  intro s buf o n label
  have hsteps : (s.start buf o n label).stepsLeft ≤ match label with | none => n | some _ => 2 * n := by
    cases label with
    | none => simp [State.stepsLeft]
    | some l => simp [State.stepsLeft, Nat.two_mul]
  have hend := endsWith_outcome _ _ hsteps
  rw [outcome_start] at hend
  exact hend

/-- Settles O52: the run ends with its outcome, which at the start is what `render_all` gives. -/
theorem everyRenderCallEndsWithTheSpecifiedResult : Obligations.EveryRenderCallEndsWithTheSpecifiedResult := by
  unfold Obligations.EveryRenderCallEndsWithTheSpecifiedResult
  intro s rs label
  have hend := endsWith_outcome rs.length (s.startRender rs label) (by simp [State.stepsLeft])
  rw [outcome_startRender] at hend
  exact hend

end Sys2Proof.Machine
end

section
/-! PROOFS. Decode and encode agree both ways, on words and on bytes (30_encoding.md R50 to R52;
40_decode_algorithm.md R71 to R74; 20_memory.md R36). -/

namespace Sys2Proof

/-! ## From an instruction to its word and back -/

/-- An instruction's word resolves to the instruction's own row. -/
theorem resolve_encode (i : Instr) : resolve (encode i) = .ok (i.format, i.kind, i.mnemonic) := by
  obtain ⟨-, row, hmem, hm, hf, hk, hs⟩ := encode_selects_row i
  rw [resolve_of_selects hmem (OpcodeRow.selects_iff.mp hs), hm, hf, hk]

/-- The operands sliced from an instruction's word are the instruction's own. -/
theorem ofWord_encode (i : Instr) : Instr.ofWord i.mnemonic (encode i) = i := by
  cases i <;> simp [Instr.ofWord, Instr.mnemonic, encode]

theorem decodeInstr_encode (i : Instr) : decodeInstr (encode i) = .ok i := by
  simp only [decodeInstr, resolve_encode, ofWord_encode]

/-- The four bytes of a word join to the word. -/
theorem joinBytes_of_slices (w : Word) :
    joinBytes (w.extractLsb' 24 8) (w.extractLsb' 16 8) (w.extractLsb' 8 8) (w.extractLsb' 0 8) = w := by
  rw [joinBytes, extract_join w 16 8 8, extract_join w 8 8 16, extract_join w 0 8 24]
  exact BitVec.extractLsb'_eq_self

/-- The bytes of a word that decodes give its instruction and hand back what follows them. -/
theorem decodeBytes_wordBytes {w : Word} {i : Instr} (h : decodeInstr w = .ok i) (rest : List Byte) :
    decodeBytes (wordBytes w ++ rest) = .ok (i, rest) := by
  simp only [wordBytes, List.cons_append, List.nil_append, decodeBytes, joinBytes_of_slices, h]

/-- Settles O10: an instruction's word resolves to its row, its slices are the operands, and its bytes join to it. -/
theorem decodeOfEncodeIsTheInstruction : Obligations.DecodeOfEncodeIsTheInstruction := by
  unfold Obligations.DecodeOfEncodeIsTheInstruction
  exact fun i _ => ⟨decodeInstr_encode i, decode_encode i, decodeBytes_wordBytes (decodeInstr_encode i)⟩

/-! ## From a word to its instruction and back -/

/-- The instruction decoded from a word has that word. -/
theorem encode_of_decodeInstr_ok {w : Word} {i : Instr} (h : decodeInstr w = .ok i) : encode i = w := by
  obtain ⟨f, k, m, -, hrec⟩ := decode_ok_iff.mp (decode_of_decodeInstr_ok h)
  exact congrArg Record.raw hrec

/-- Settles O11: the instruction's record is the one decode makes of the word, and both hold their word. -/
theorem encodeOfDecodeIsTheWord : Obligations.EncodeOfDecodeIsTheWord := by
  unfold Obligations.EncodeOfDecodeIsTheWord
  exact fun w i h => ⟨encode_of_decodeInstr_ok h, decode_of_decodeInstr_ok h⟩

/-- Settles O14: nine closed words, evaluated. -/
theorem sampleWordsDecode : Obligations.SampleWordsDecode := by
  unfold Obligations.SampleWordsDecode
  decide

end Sys2Proof
end

section
/-! PROOFS. What `readWord` depends on: the length of the buffer, the four bytes at the offset, and whether the offset
overflows (20_memory.md R43, R46; 92_eei_decisions.md D17). -/

namespace Sys2Proof

/-- Byte `j` of the join of four bytes, the first most significant. -/
theorem extract_joinBytes (c : Nat → Byte) {j : Nat} (hj : j < 4) :
    (joinBytes (c 0) (c 1) (c 2) (c 3)).extractLsb' (24 - 8 * j) 8 = c j := by
  have hb := wordBytes_joinBytes (c 0) (c 1) (c 2) (c 3)
  simp only [wordBytes, List.cons.injEq, and_true] at hb
  obtain ⟨e0, e1, e2, e3⟩ := hb
  match j, hj with
  | 0, _ => exact e0
  | 1, _ => exact e1
  | 2, _ => exact e2
  | 3, _ => exact e3

end Sys2Proof

namespace Sys2Proof.Machine

/-! ## The bytes that a read sees (20_memory.md R43, R46) -/

/-- Buffers of one length with the same four bytes at the offset read alike. -/
theorem readWord_congr {m m' : Memory} {o : Nat} (p : Params) (hlen : m.length = m'.length)
    (hread : ∀ j, j < 4 → m.read (o + j) = m'.read (o + j)) : readWord p (some m) o = readWord p (some m') o := by
  have h0 : m.read o = m'.read o := hread 0 (by decide)
  rw [readWord, readWord, hlen, h0, hread 1 (by decide), hread 2 (by decide), hread 3 (by decide)]

/-- A word is read exactly when the checks pass and its bytes stand at the offset. -/
theorem readWord_ok_iff {p : Params} {m : Memory} {o : Nat} {w : Word} : readWord p (some m) o = .ok w ↔
    o % 4 = 0 ∧ o + 4 ≤ m.length ∧ offsetOverflows p o = false ∧
      ∀ j, j < 4 → m.read (o + j) = some (w.extractLsb' (24 - 8 * j) 8) := by
  constructor
  · intro h
    rcases readWord_cases p (some m) o with ⟨_, hr⟩ | ⟨_, _, _, hr⟩ | ⟨_, _, _, hr⟩ |
        ⟨_, b0, b1, b2, b3, hm, halign, hlen, hover, -, -, -, -, -⟩
    · simp [hr] at h
    · simp [hr] at h
    · simp [hr] at h
    · cases hm
      obtain ⟨hslices, -⟩ := wordsAreBigEndian
      obtain ⟨h0, h1, h2, h3⟩ := hslices p m o w h
      refine ⟨halign, hlen, hover, fun j hj => ?_⟩
      match j, hj with
      | 0, _ => exact h0
      | 1, _ => exact h1
      | 2, _ => exact h2
      | 3, _ => exact h3
  · rintro ⟨halign, hlen, hover, hread⟩
    have h := readWord_of_reads halign hlen hover (hread 0 (by decide)) (hread 1 (by decide)) (hread 2 (by decide))
      (hread 3 (by decide))
    exact h.trans (congrArg Except.ok (joinBytes_of_slices w))

/-- The bytes of a word with byte `k` replaced. -/
def replacedByte (w : Word) (k : Nat) (b : Byte) (j : Nat) : Byte :=
  if j = k then b else w.extractLsb' (24 - 8 * j) 8

/-- A change of byte `k` of a readable word gives the word with that byte replaced. -/
theorem readWord_write {p : Params} {m : Memory} {o k : Nat} {w : Word} (h : readWord p (some m) o = .ok w)
    (hk : k < 4) (b : Byte) : ∃ w', readWord p (some (m.write (o + k) b)) o = .ok w' ∧
      ∀ j, j < 4 → w'.extractLsb' (24 - 8 * j) 8 = replacedByte w k b j := by
  obtain ⟨halign, hlen, hover, hread⟩ := readWord_ok_iff.mp h
  have hbytes : ∀ j, j < 4 → (joinBytes (replacedByte w k b 0) (replacedByte w k b 1) (replacedByte w k b 2)
      (replacedByte w k b 3)).extractLsb' (24 - 8 * j) 8 = replacedByte w k b j := fun j => extract_joinBytes _
  refine ⟨_, readWord_ok_iff.mpr ⟨halign, by rwa [Memory.length_write], hover, fun j hj => ?_⟩, hbytes⟩
  rw [hbytes j hj, Memory.read_write, replacedByte]
  by_cases hjk : j = k
  · simp [hjk, hread k hk]
  · simp [hjk, hread j hj]

/-- Settles O29: a change elsewhere leaves the four bytes, and a change of one of them changes that byte of the word. -/
theorem readWordSeesOnlyItsFourBytes : Obligations.ReadWordSeesOnlyItsFourBytes := by
  unfold Obligations.ReadWordSeesOnlyItsFourBytes
  refine fun p m o a b => ⟨fun ha => ?_, fun w k h hk hak => ?_⟩
  · refine readWord_congr p (Memory.length_write m a b) fun j hj => ?_
    rw [Memory.read_write, if_neg (by omega)]
  · rw [hak]
    exact readWord_write h hk b

/-! ## A fixed offset width (92_eei_decisions.md D17) -/

/-- The parameters matter to a read only through the overflow of its offset. -/
theorem readWord_congr_params {p p' : Params} {o : Nat} (h : offsetOverflows p o = offsetOverflows p' o)
    (buf : Option Memory) : readWord p buf o = readWord p' buf o := by
  cases buf with
  | none => rfl
  | some m => rw [readWord, readWord, h]

/-- An aligned offset that overflows is out of bounds, whatever the buffer. -/
theorem readWord_of_overflow {p : Params} {o : Nat} (m : Memory) (ho : o % 4 = 0) (h : offsetOverflows p o = true) :
    readWord p (some m) o = .error (.outOfBounds o m.length) := by
  rw [readWord, if_neg (not_not_intro ho), if_pos (.inr h)]

/-- Settles O30: the offset overflows exactly within 4 of the maximum, and absence and alignment are checked before. -/
theorem fixedOffsetWidthRejectsAtItsMaximum : Obligations.FixedOffsetWidthRejectsAtItsMaximum := by
  unfold Obligations.FixedOffsetWidthRejectsAtItsMaximum
  intro names k o
  refine ⟨fun m ho hk => readWord_of_overflow m ho (decide_eq_true hk), fun buf hbuf => ?_, readWord_absent _ o,
    fun m ho => readWord_of_misaligned _ m ho⟩
  rcases hbuf with ho | hk | rfl
  · cases buf with
    | none => rfl
    | some m => rw [readWord_of_misaligned _ m ho, readWord_of_misaligned _ m ho]
  · have hfits : offsetOverflows ⟨some k, names⟩ o = false := decide_eq_false (not_le.mpr hk)
    exact readWord_congr_params (hfits.trans (offsetOverflows_of_unbounded rfl o).symm) buf
  · rfl

end Sys2Proof.Machine
end

section
/-! PROOFS. The register names with REGNAME_EXT (92_eei_decisions.md D14) and the stages of the whole path
(45_disassembler.md R110; 60_exceptions.md R121). -/

namespace Sys2Proof.Machine

/-! ## Register names -/

/-- Looking a listed key up in two lists side by side gives the value at the key's position. -/
theorem lookup_zip_of_mem {α β : Type} [DecidableEq α] {k : α} {ks : List α} (hk : k ∈ ks) (vs : List β) :
    (ks.zip vs).lookup k = vs[ks.idxOf k]? := by
  induction ks generalizing vs with
  | nil => cases hk
  | cons x xs ih =>
    cases vs with
    | nil => simp
    | cons v vs =>
      rw [List.zip_cons_cons, List.lookup_cons]
      by_cases hx : k = x
      · simp [hx]
      · rw [beq_false_of_ne hx, List.idxOf_cons_ne _ (Ne.symm hx), List.getElem?_cons_succ]
        exact ih ((List.mem_cons.mp hk).resolve_left hx) vs

/-- A name of the spec's table is not touched by the caller's names. -/
theorem regName_of_default {i : RegIndex} {n : String} (h : regName Params.default i = some n) (p : Params) :
    regName p i = some n := by
  cases hl : regNameTable.lookup i with
  | some n' => simpa [regName, hl] using h
  | none => simp [regName, hl, Params.default] at h

/-- At an index without a name in the spec's table stands the caller's name of the same position. -/
theorem regName_of_unnamed (bits : Option Nat) (ext : Vector String 20) {i : RegIndex} {j : Nat}
    (h : regNameTable.lookup i = none ∧ i ∈ unnamedIndices ∧ unnamedIndices.idxOf i = j) :
    regName ⟨bits, some ext⟩ i = ext[j]? := by
  obtain ⟨hnone, hmem, rfl⟩ := h
  simp [regName, hnone, lookup_zip_of_mem hmem]

/-- Settles O32: the position of each index among the unnamed ones, group by group. -/
theorem registerNameExtension : Obligations.RegisterNameExtension := by
  unfold Obligations.RegisterNameExtension
  have low : ∀ i : RegIndex, 2 ≤ i.toNat → i.toNat ≤ 7 → regNameTable.lookup i = none ∧
      i ∈ unnamedIndices ∧ unnamedIndices.idxOf i = i.toNat - 2 := by decide
  have mid : ∀ i : RegIndex, 16 ≤ i.toNat → i.toNat ≤ 23 → regNameTable.lookup i = none ∧
      i ∈ unnamedIndices ∧ unnamedIndices.idxOf i = i.toNat - 10 := by decide
  have high : ∀ i : RegIndex, 26 ≤ i.toNat → regNameTable.lookup i = none ∧
      i ∈ unnamedIndices ∧ unnamedIndices.idxOf i = i.toNat - 12 := by decide
  exact fun ext bits i => ⟨fun n h => regName_of_default h _, fun h h' => regName_of_unnamed bits ext (low i h h'),
    fun h h' => regName_of_unnamed bits ext (mid i h h'), fun h => regName_of_unnamed bits ext (high i h)⟩

/-! ## The stages of the whole path -/

section
variable {p : Params} {buf : Option Memory} {s n : Nat}

theorem disassemble_of_decode_error {rep : ErrorReport} (h : decodeAll p buf s n = .error rep) (label : String) :
    disassemble p buf s n label = .error rep := by
  simp only [disassemble, h]

theorem disassemble_of_render_ok {rs : List Record} {label t : String} (h : decodeAll p buf s n = .ok rs)
    (hr : renderAll p rs label = .ok t) : disassemble p buf s n label = .ok t := by
  simp only [disassemble, h, hr]

end

/-- Settles O39: by the stage that fails; P5 evaluated at both counts. -/
theorem wholePathIsStaged : Obligations.WholePathIsStaged := by
  unfold Obligations.WholePathIsStaged
  obtain ⟨-, hrender⟩ := renderAllReportsTheFirstFailure
  exact ⟨fun p buf s n label => ⟨fun rep h => disassemble_of_decode_error h label, hrender p buf s n label,
    fun rs t => disassemble_of_render_ok⟩, by decide⟩

end Sys2Proof.Machine
end

section
/-! PROOFS. What each kind of step answers, with its whole next state; what every step leaves alone; that the records
stay well-formed (60_exceptions.md R122; 10_state.md R26, R29). -/

namespace Sys2Proof.Machine

section
variable {s : State}

/-! ## The next state of each kind of step -/

theorem step_of_read_ok {w : Word} {i : Instr} (hp : s.phase = .decoding)
    (hr : readWord s.params s.buffer (s.wordOffset s.records.length) = .ok w) (hd : decodeInstr w = .ok i) :
    step s = .next (deliver i.record s) :=
  (step_of_decoding hp hr hd).trans (exec_eq_deliver i s)

/-- A read that fails leaves the port undriven and raises its error. -/
theorem step_of_read_error {e : Error} (hp : s.phase = .decoding)
    (hr : readWord s.params s.buffer (s.wordOffset s.records.length) = .error e) :
    step s = .next (raise e s.records.length (some (s.wordOffset s.records.length)) s.undrive) := by
  simp [step, hp, fetch, hr]

/-- A decode that fails leaves its word on the port and raises its error. -/
theorem step_of_decode_error {w : Word} {e : Error} (hp : s.phase = .decoding)
    (hr : readWord s.params s.buffer (s.wordOffset s.records.length) = .ok w) (hd : decodeInstr w = .error e) :
    step s = .next (raise e s.records.length (some (s.wordOffset s.records.length)) (s.drive w)) := by
  simp [step, hp, fetch, hr, hd]

theorem step_of_render_ok {r : Record} {l : String} (hp : s.phase = .rendering)
    (hr : s.records[s.lines.length]? = some r) (hl : render s.params r = .ok l) :
    step s = .next { s with lines := s.lines ++ [l] } := by
  simp [step, hp, renderNext, hr, hl]

theorem step_of_render_error {r : Record} {e : Error} (hp : s.phase = .rendering)
    (hr : s.records[s.lines.length]? = some r) (he : render s.params r = .error e) :
    step s = .next (raise e s.lines.length (s.renderOffset s.lines.length) s) := by
  simp [step, hp, renderNext, hr, he]

theorem phase_of_error (h : s.error ≠ none) : s.phase = .ended := (phase_ended_iff s).mpr (.inl h)

/-- The byte offset of a render error is that of the record's word, where there is a buffer (90_conflicts.md C7). -/
theorem renderOffset_eq_map (s : State) (i : Nat) : s.renderOffset i = s.buffer.map fun _ => s.offset + 4 * i := by
  cases h : s.buffer <;> simp [State.renderOffset, State.wordOffset, h]

/-- The two views of the decoder fail with the same error. -/
theorem decodeInstr_error_of_decode {w : Word} {e : Error} (h : decode w = .error e) : decodeInstr w = .error e := by
  simp only [decodeInstr, decode_error_iff.mp h]

end

/-- Settles O41: the word stays on the port, whose outputs are those of a word that does not resolve. -/
theorem stepRaisesDecodeErrors : Obligations.StepRaisesDecodeErrors := by
  unfold Obligations.StepRaisesDecodeErrors
  intro s w e he hlt hr hd
  have hp : s.phase = .decoding := (phase_decoding_iff s).mpr ⟨he, hlt⟩
  obtain ⟨hok, herr, -⟩ := portsOf_of_resolve_error (decode_error_iff.mp hd)
  refine ⟨_, step_of_decode_error hp hr (decodeInstr_error_of_decode hd), rfl, phase_of_error (by simp), hok, rfl, ?_⟩
  rcases error_of_decode_error hd with rfl | rfl
  · exact .inl ⟨rfl, herr⟩
  · exact .inr ⟨rfl, herr⟩

/-- Settles O42: nothing is decoded and the port is left undriven. -/
theorem stepRaisesReadErrors : Obligations.StepRaisesReadErrors := by
  unfold Obligations.StepRaisesReadErrors
  intro s e he hlt hr
  have hp : s.phase = .decoding := (phase_decoding_iff s).mpr ⟨he, hlt⟩
  exact ⟨s.undriven + 1, _, step_of_read_error hp hr, rfl, phase_of_error (by simp)⟩

/-- Settles O43: the line of the next record or its error; the port is not touched. -/
theorem stepRendersTheNextRecord : Obligations.StepRendersTheNextRecord := by
  unfold Obligations.StepRendersTheNextRecord
  intro s r he hcount hlabel hr
  obtain ⟨hlt, -⟩ := List.getElem?_eq_some_iff.mp hr
  have hp : s.phase = .rendering := (phase_rendering_iff s).mpr ⟨he, hcount, hlabel, hlt⟩
  refine ⟨fun l => step_of_render_ok hp hr, fun e herr => ⟨_, step_of_render_error hp hr herr, ?_,
    phase_of_error (by simp)⟩⟩
  rw [renderOffset_eq_map]
  rfl

/-! ## What every step keeps -/

/-- Settles O45: each of the next states appends a record, appends a line, or raises an error. -/
theorem stepsNeverWriteTheBuffer : Obligations.StepsNeverWriteTheBuffer := by
  unfold Obligations.StepsNeverWriteTheBuffer
  intro s t h
  rcases step_next_cases h with ⟨hp, hnext⟩ | ⟨hp, r, -, hnext⟩
  · obtain ⟨he, -⟩ := (phase_decoding_iff s).mp hp
    rcases hnext with ⟨r, -, rfl⟩ | ⟨e, w, u, -, rfl⟩
    · exact ⟨rfl, rfl, rfl, rfl, rfl, .inr ⟨r, rfl⟩, .inl rfl, .inr rfl, he, .inl he⟩
    · exact ⟨rfl, rfl, rfl, rfl, rfl, .inl rfl, .inr (.inl ⟨rfl, by simp⟩), .inl rfl, he, .inr ⟨rfl, rfl⟩⟩
  · obtain ⟨he, -⟩ := (phase_rendering_iff s).mp hp
    rcases hnext with ⟨l, -, rfl⟩ | ⟨e, -, rfl⟩
    · exact ⟨rfl, rfl, rfl, rfl, rfl, .inl rfl, .inr (.inr ⟨l, rfl⟩), .inl rfl, he, .inl he⟩
    · exact ⟨rfl, rfl, rfl, rfl, rfl, .inl rfl, .inr (.inl ⟨rfl, by simp⟩), .inl rfl, he, .inr ⟨rfl, rfl⟩⟩

/-- The record of a word read and decoded is well-formed. -/
theorem decodeAt_ok_wf {p : Params} {buf : Option Memory} {o : Nat} {r : Record} (h : decodeAt p buf o = .ok r) :
    r.wf = true := by
  obtain ⟨w, -, hd⟩ := decodeAt_ok_iff.mp h
  exact decode_ok_wf hd

/-- Settles O50: the only record a step adds is one that decode returns. -/
theorem stepsKeepRecordsWellFormed : Obligations.StepsKeepRecordsWellFormed := by
  unfold Obligations.StepsKeepRecordsWellFormed
  intro s t hwf h
  rcases step_next_cases h with ⟨_, ⟨r, hd, rfl⟩ | ⟨_, _, _, _, rfl⟩⟩ | ⟨_, _, _, ⟨_, _, rfl⟩ | ⟨_, _, rfl⟩⟩
  · exact List.forall_mem_append.mpr ⟨hwf, List.forall_mem_singleton.mpr (decodeAt_ok_wf hd)⟩
  · exact hwf
  · exact hwf
  · exact hwf

/-- Settles O46: the reset state, field by field; with no words asked for the run has ended. -/
theorem resetHoldsNothing : Obligations.ResetHoldsNothing := by
  unfold Obligations.ResetHoldsNothing
  exact ⟨rfl, rfl, rfl, rfl, rfl, rfl, rfl, rfl, (phase_ended_iff State.reset).mpr (.inr ⟨le_rfl, .inl rfl⟩)⟩

end Sys2Proof.Machine
end

section
/-! PROOFS. Every step keeps a run over a buffer in agreement with the pure functions: a run in agreement gives what
they give, and every step keeps what a run gives (40_decode_algorithm.md R80; 45_disassembler.md R107, R108). -/

namespace Sys2Proof.Machine

/-! ## The pure functions, cut in two -/

/-- Once the first words decode, the rest of the sequence decides. -/
theorem decodeFrom_add {p : Params} {buf : Option Memory} {s i n : Nat} {rs : List Record}
    (h : decodeFrom p buf s i n = .ok rs) (k : Nat) :
    decodeFrom p buf s i (n + k) = (decodeFrom p buf s (i + n) k).map (rs ++ ·) := by
  induction n generalizing i rs with
  | zero =>
    cases h
    rw [Nat.zero_add, Nat.add_zero]
    cases decodeFrom p buf s i k <;> rfl
  | succ n ih =>
    obtain ⟨r, rs', hr, hrs', rfl⟩ := decodeFrom_succ_ok_iff.mp h
    rw [Nat.succ_add_eq_add_succ, Nat.add_succ, decodeFrom_succ_of_ok hr, ih hrs', Nat.succ_add_eq_add_succ]
    cases decodeFrom p buf s (i + (n + 1)) k <;> rfl

/-- Once the first records render, the rest of the records decide. -/
theorem renderFrom_append {p : Params} {i : Nat} {rs : List Record} {ls : List String}
    (h : renderFrom p i rs = .ok ls) (rs' : List Record) :
    renderFrom p i (rs ++ rs') = (renderFrom p (i + rs.length) rs').map (ls ++ ·) := by
  induction rs generalizing i ls with
  | nil =>
    cases h
    rw [List.nil_append, List.length_nil, Nat.add_zero]
    cases renderFrom p i rs' <;> rfl
  | cons r rs ih =>
    obtain ⟨l, ls', hl, hls', rfl⟩ := List.forall₂_cons_left_iff.mp (renderFrom_ok_iff.mp h)
    rw [List.cons_append, renderFrom_cons_of_ok hl, ih (renderFrom_ok_iff.mpr hls'), List.length_cons,
      Nat.add_right_comm]
    cases renderFrom p (i + rs.length + 1) rs' <;> rfl

/-! ## A run in agreement gives what the pure functions give -/

/-- The sequence decode of a run's inputs: its records so far and those of the words left. -/
theorem State.Faithful.decodeAll_eq {s : State} (h : s.Faithful) :
    decodeAll s.params s.buffer s.offset s.count =
      (decodeFrom s.params s.buffer s.offset s.records.length (s.count - s.records.length)).map (s.records ++ ·) := by
  have hadd := decodeFrom_add h.decoded (s.count - s.records.length)
  rwa [Nat.add_sub_cancel' h.bounded.records_le, Nat.zero_add] at hadd

/-- The lines of all records: the lines so far and those of the records left to render. -/
theorem State.Faithful.renderFrom_eq {s : State} (h : s.Faithful) (rs : List Record) :
    renderFrom s.params 0 (s.records ++ rs) =
      (renderFrom s.params s.lines.length ((s.records ++ rs).drop s.lines.length)).map (s.lines ++ ·) := by
  have happ := renderFrom_append h.rendered ((s.records ++ rs).drop s.lines.length)
  have hlen : (s.records.take s.lines.length).length = s.lines.length :=
    List.length_take_of_le h.bounded.lines_le
  rwa [hlen, Nat.zero_add, ← List.take_append_of_le_length h.bounded.lines_le (l₂ := rs),
    List.take_append_drop] at happ

theorem expected_of_decode_error {s : State} {rep : ErrorReport}
    (h : decodeAll s.params s.buffer s.offset s.count = .error rep) : s.expected = .failed rep := by
  cases hl : s.label <;> simp [State.expected, disassemble, h, hl]

/-- A record that was decoded came from a buffer, so the byte offset of its render error is known. -/
theorem renderOffset_of_decoded {s : State} {rs : List Record}
    (h : decodeAll s.params s.buffer s.offset s.count = .ok rs) (hne : rs ≠ []) (i : Nat) :
    s.renderOffset i = some (s.offset + 4 * i) := by
  rw [renderOffset_eq_map]
  cases hb : s.buffer with
  | some m => rfl
  | none =>
    rw [hb] at h
    exact absurd (decodeAll_none_ok h) hne

/-- Once all words decode, rendering on from the lines so far gives what the pure functions give. -/
theorem State.Faithful.renderOutcome_eq_expected {s : State} (h : s.Faithful) {rs : List Record}
    (hd : decodeAll s.params s.buffer s.offset s.count = .ok (s.records ++ rs)) :
    s.renderOutcome (s.records ++ rs) = s.expected := by
  have hlines := h.renderFrom_eq rs
  cases hl : s.label with
  | none => simp [State.renderOutcome, State.expected, hl, hd]
  | some label =>
    rcases hr : renderFrom s.params s.lines.length ((s.records ++ rs).drop s.lines.length) with ⟨e, i⟩ | ls
    · have hne : s.records ++ rs ≠ [] := fun hnil => by simp [hnil, renderFrom] at hr
      simp [State.renderOutcome, State.expected, disassemble, renderAll, hl, hd, hlines, hr, Except.map,
        renderOffset_of_decoded hd hne]
    · simp [State.renderOutcome, State.expected, disassemble, renderAll, hl, hd, hlines, hr, Except.map]

/-- A run in agreement gives what the pure functions give for its inputs. -/
theorem State.Faithful.outcome_eq_expected {s : State} (h : s.Faithful) : s.outcome = s.expected := by
  cases he : s.error with
  | some rep => rw [outcome_of_error he, h.failed rep he]
  | none =>
    have hall := h.decodeAll_eq
    rw [State.outcome, he]
    cases hd : decodeFrom s.params s.buffer s.offset s.records.length (s.count - s.records.length) with
    | error rep =>
      rw [hd] at hall
      exact (expected_of_decode_error hall).symm
    | ok rs =>
      rw [hd] at hall
      exact h.renderOutcome_eq_expected hall

/-! ## Every step keeps the agreement -/

/-- No step changes what the pure functions give. -/
theorem step_expected {s t : State} (h : step s = .next t) : t.expected = s.expected := by
  obtain ⟨hbuf, hparams, hoffset, hcount, hlabel, -⟩ := stepsNeverWriteTheBuffer s t h
  simp only [State.expected, hbuf, hparams, hoffset, hcount, hlabel]

/-- The records of the words so far, with the record of the next word. -/
theorem decodeAll_append {p : Params} {buf : Option Memory} {s : Nat} {rs : List Record} {r : Record}
    (h : decodeAll p buf s rs.length = .ok rs) (hr : decodeAt p buf (s + 4 * rs.length) = .ok r) :
    decodeAll p buf s (rs ++ [r]).length = .ok (rs ++ [r]) := by
  rw [List.length_append, List.length_singleton, decodeAll, decodeFrom_add h, Nat.zero_add, decodeFrom_succ_of_ok hr]
  rfl

/-- The lines of the records so far, with the line of the next record. -/
theorem renderFrom_take_append {p : Params} {rs : List Record} {ls : List String} {r : Record} {l : String}
    (h : renderFrom p 0 (rs.take ls.length) = .ok ls) (hr : rs[ls.length]? = some r) (hl : render p r = .ok l) :
    renderFrom p 0 (rs.take (ls ++ [l]).length) = .ok (ls ++ [l]) := by
  rw [List.length_append, List.length_singleton, List.take_add_one, hr, Option.toList_some, renderFrom_append h,
    renderFrom_cons_of_ok hl]
  rfl

theorem step_decoded {s t : State} (hf : s.Faithful) (h : step s = .next t) :
    decodeAll t.params t.buffer t.offset t.records.length = .ok t.records := by
  rcases step_next_cases h with ⟨_, ⟨r, hd, rfl⟩ | ⟨_, _, _, _, rfl⟩⟩ | ⟨_, _, _, ⟨_, _, rfl⟩ | ⟨_, _, rfl⟩⟩
  · exact decodeAll_append hf.decoded hd
  · exact hf.decoded
  · exact hf.decoded
  · exact hf.decoded

theorem step_rendered {s t : State} (hf : s.Faithful) (h : step s = .next t) :
    renderFrom t.params 0 (t.records.take t.lines.length) = .ok t.lines := by
  rcases step_next_cases h with ⟨_, ⟨r, _, rfl⟩ | ⟨_, _, _, _, rfl⟩⟩ | ⟨_, r, hr, ⟨l, hl, rfl⟩ | ⟨_, _, rfl⟩⟩
  · have htake : (s.records ++ [r]).take s.lines.length = s.records.take s.lines.length :=
      List.take_append_of_le_length hf.bounded.lines_le
    exact (congrArg (renderFrom s.params 0) htake).trans hf.rendered
  · rfl
  · exact renderFrom_take_append hf.rendered hr hl
  · rfl

/-- Settles O49: a run in agreement gives what the pure functions give, a step keeps both, and an error is what the run
gives. -/
theorem stepsKeepTheRunFaithful : Obligations.StepsKeepTheRunFaithful := by
  unfold Obligations.StepsKeepTheRunFaithful
  refine fun s t hf h => ⟨step_bounded h hf.bounded, step_decoded hf h, step_rendered hf h, fun rep he => ?_⟩
  calc t.expected
    _ = s.expected := step_expected h
    _ = s.outcome := hf.outcome_eq_expected.symm
    _ = t.outcome := (step_outcome h).symm
    _ = .failed rep := outcome_of_error he

end Sys2Proof.Machine
end

section
/-! PROOFS. Two runs of the same call: a step reads neither the input port nor its counter, and once a word has been
decoded or has failed to decode the port does not depend on what it carried before (10_state.md R13, R30;
60_exceptions.md R124). -/

namespace Sys2Proof.Machine

/-! ## The input port of a state -/

/-- The state with another input port: another word, or another free value while undriven. -/
def State.withPort (s : State) (w : Option Word) (u : Nat) : State := { s with word := w, undriven := u }

/-- A word has been decoded or has failed to decode, and no read has failed. -/
def State.PortSettled (s : State) : Prop :=
  (s.records ≠ [] ∨ s.error ≠ none) ∧
    ∀ rep, s.error = some rep → errorKind rep.error ∉ [ErrorKind.outOfBounds, .invalidArgument]

/-- The other input port shows the same outputs, once the port is settled. -/
def State.SameOutputs (s : State) (w : Option Word) (u : Nat) : Prop :=
  s.PortSettled → (s.withPort w u).outputs = s.outputs

section
variable {s t : State}

/-- While a record is rendered, a word has been decoded. -/
theorem portSettled_of_rendering (hp : s.phase = .rendering) : s.PortSettled := by
  obtain ⟨he, -, -, hlt⟩ := (phase_rendering_iff s).mp hp
  exact ⟨.inl (List.ne_nil_of_length_pos (by omega)), fun rep h => by simp [he] at h⟩

/-! ## Steps and runs from the other port -/

/-- A step from another port makes the same progress, and outputs that agreed go on agreeing. -/
theorem step_withPort (h : step s = .next t) (w : Option Word) (u : Nat) :
    ∃ w' u', step (s.withPort w u) = .next (t.withPort w' u') ∧ (s.SameOutputs w u → t.SameOutputs w' u') := by
  rcases step_cases s with ⟨x, i, hp, hr, hd, hs⟩ | ⟨e, hp, hr, hs⟩ | ⟨x, e, hp, hr, hd, hs⟩ | ⟨r, l, hp, hr, hl, hs⟩ |
      ⟨r, e, hp, hr, he, hs⟩ | ⟨_, hs⟩ <;> rw [hs] at h <;> cases h
  · exact ⟨some i.record.raw, u, step_of_read_ok (s := s.withPort w u) hp hr hd, fun _ _ => rfl⟩
  · exact ⟨none, u + 1, step_of_read_error (s := s.withPort w u) hp hr,
      fun _ ⟨_, hkind⟩ => absurd (readWord_errorKind hr) (hkind _ rfl)⟩
  · exact ⟨some x, u, step_of_decode_error (s := s.withPort w u) hp hr hd, fun _ _ => rfl⟩
  · exact ⟨w, u, step_of_render_ok (s := s.withPort w u) hp hr hl, fun hout _ => hout (portSettled_of_rendering hp)⟩
  · exact ⟨w, u, step_of_render_error (s := s.withPort w u) hp hr he, fun hout _ => hout (portSettled_of_rendering hp)⟩

theorem run_withPort {k : Nat} (h : Host.Core.run Sys2Proof.core k s = .next t) (w : Option Word) (u : Nat) :
    ∃ w' u', Host.Core.run Sys2Proof.core k (s.withPort w u) = .next (t.withPort w' u') ∧
      (s.SameOutputs w u → t.SameOutputs w' u') := by
  induction k generalizing s w u with
  | zero =>
    cases h
    exact ⟨w, u, rfl, id⟩
  | succ k ih =>
    obtain ⟨a, hstep, hrun⟩ := (run_succ_iff k s t).mp h
    obtain ⟨w₁, u₁, hstep', hout₁⟩ := step_withPort hstep w u
    obtain ⟨w₂, u₂, hrun', hout₂⟩ := ih hrun w₁ u₁
    exact ⟨w₂, u₂, (run_succ_iff k _ _).mpr ⟨_, hstep', hrun'⟩, hout₂ ∘ hout₁⟩

/-! ## Rendering leaves the port alone -/

/-- Once all words are decoded, a step leaves the outputs as they were, and there is still no word to decode. -/
theorem step_outputs_of_decoded (h : step s = .next t) (hcount : s.count ≤ s.records.length) :
    t.outputs = s.outputs ∧ t.count ≤ t.records.length := by
  rcases step_next_cases h with ⟨hp, _⟩ | ⟨_, _, _, ⟨_, _, rfl⟩ | ⟨_, _, rfl⟩⟩
  · exact absurd ((phase_decoding_iff s).mp hp).2 (not_lt.mpr hcount)
  · exact ⟨rfl, hcount⟩
  · exact ⟨rfl, hcount⟩

theorem run_outputs_of_decoded {k : Nat} (h : Host.Core.run Sys2Proof.core k s = .next t)
    (hcount : s.count ≤ s.records.length) : t.outputs = s.outputs := by
  induction k generalizing s with
  | zero =>
    cases h
    rfl
  | succ k ih =>
    obtain ⟨a, hstep, hrun⟩ := (run_succ_iff k s t).mp h
    obtain ⟨hout, hcount'⟩ := step_outputs_of_decoded hstep hcount
    exact (ih hrun hcount').trans hout

end

/-! ## Calls -/

/-- A call starts alike on two machines with the same parameters, but for the port. -/
theorem start_eq_withPort {s₁ s₂ : State} (hp : s₁.params = s₂.params) (buf : Option Memory) (o n : Nat)
    (l : Option String) : s₂.start buf o n l = (s₁.start buf o n l).withPort s₂.word s₂.undriven := by
  rw [State.start, State.start, State.withPort, hp]

theorem startRender_eq_withPort {s₁ s₂ : State} (hp : s₁.params = s₂.params) (rs : List Record) (l : String) :
    s₂.startRender rs l = (s₁.startRender rs l).withPort s₂.word s₂.undriven := by
  rw [State.startRender, State.startRender, State.withPort, hp]

/-- At the start of a call over a buffer nothing has been decoded, so nothing is asked of the outputs. -/
theorem start_sameOutputs (s : State) (buf : Option Memory) (o n : Nat) (l : Option String) (w : Option Word)
    (u : Nat) : (s.start buf o n l).SameOutputs w u := by
  rintro ⟨hsome, -⟩
  simp at hsome

/-- Settles O53: the same call starts alike but for the port, which no step reads; a decoded word settles the port, and
rendering leaves it alone. -/
theorem callsDoNotDependOnHistory : Obligations.CallsDoNotDependOnHistory := by
  unfold Obligations.CallsDoNotDependOnHistory
  refine ⟨fun s₁ s₂ buf o n label k t₁ hp h => ?_, fun s₁ s₂ rs label k t₁ hp h => ?_⟩
  · obtain ⟨w, u, hrun, hout⟩ := run_withPort h s₂.word s₂.undriven
    rw [← start_eq_withPort hp] at hrun
    exact ⟨t₁.withPort w u, hrun, rfl, rfl, rfl, rfl,
      fun hsome hkind => hout (start_sameOutputs s₁ buf o n label _ _) ⟨hsome, hkind⟩⟩
  · obtain ⟨w, u, hrun, -⟩ := run_withPort h s₂.word s₂.undriven
    rw [← startRender_eq_withPort hp] at hrun
    exact ⟨t₁.withPort w u, hrun, rfl, rfl, rfl, rfl, run_outputs_of_decoded (s := s₁.startRender rs label) h le_rfl,
      run_outputs_of_decoded (s := s₂.startRender rs label) hrun le_rfl⟩

end Sys2Proof.Machine
end
